-- ==== Sys2Proof/Word.lean ====
section
/-! DEFINITION. The word types: every data path of the block is one byte wide (20_memory.md R62), an operation
word is 16 bits (30_encoding.md R80), a mnemonic is three bytes compared as 24 bits (30_encoding.md R87). -/

namespace Sys2Proof

/-- A byte: an unsigned 8-bit value (00_scope.md R8). -/
abbrev Byte := BitVec 8

/-- An operation word `OP[15:12] X[11:8] D[7:0]` (30_encoding.md R80). -/
abbrev OpWord := BitVec 16

/-- A mnemonic pattern: the first body byte in bits 23:16, the third in bits 7:0 (30_encoding.md R87). -/
abbrev Pattern := BitVec 24

end Sys2Proof
end

