-- ==== Sys2Proof/Config.lean ====
section
/-! DEFINITION. The build parameters (00_scope.md R7, 10_state.md R54) and the one free value the spec leaves: what
an emptiness test answers for a non-empty ring when `STALE_EMPTY` is true (20_memory.md R66). -/

namespace Sys2Proof

/-- The two protocol variants; exactly one is built into an instance (00_scope.md R2). -/
inductive Grammar where
  | A   -- the command grammar, markers `$` and `#`
  | B   -- the calculator grammar, markers 0x00 and 0xFF
deriving DecidableEq, Repr

/-- The build parameters of 00_scope.md R7. `HEADER` and `END` are functions of `grammar`
(`headerByte` and `endByte` in Decode.lean). -/
structure Config where
  n          : Nat       -- `N`, the capacity of each ring
  grammar    : Grammar   -- `GRAMMAR`
  bodyMax    : Nat       -- `BODY_MAX`, the body storage in bytes
  staleEmpty : Bool      -- `STALE_EMPTY`
deriving DecidableEq, Repr

/-- `BODY_MAX` of each variant (00_scope.md R7): 7 for Grammar A, 128 for Grammar B. -/
def Config.defaultBodyMax : Grammar → Nat
  | .A => 7
  | .B => 128

/-- The values 00_scope.md R7 tables for this hardware, for one of the two grammars. -/
def Config.build (g : Grammar) : Config where
  n := 128
  grammar := g
  bodyMax := Config.defaultBodyMax g
  staleEmpty := false

/-- FREE VALUE (log 6): whether the `k`-th draw sees a non-empty ring as empty (20_memory.md R66). It has no body:
nothing in Lean can say what it is. -/
opaque Config.staleDraw : Nat → Bool

end Sys2Proof
end

