-- ==== Sys2Proof/Syntax.lean ====
section
/-! DEFINITION. The instructions: one constructor per row of spec/opcode_table.json (15 operation words, 4 marker
bytes, 6 mnemonic patterns), and the assembly lines of 30_encoding.md R93 and R94. -/

namespace Sys2Proof

/-- One constructor per row of the opcode table. Operand fields have the width of 30_encoding.md R83, so every term
is an operation the encoding can spell. -/
inductive Instr where
  -- operation words (30_encoding.md R81)
  | nop
  | pushRx (b : Byte)
  | pushTx (b : Byte)
  | popRx
  | popTx
  | emptyRx
  | emptyTx
  | frStep
  | frAck
  | frBody (k : Byte)
  | txReady
  | pump
  | ieWrite (v : BitVec 2)
  | clrStatus (m : BitVec 5)
  | rdReg (r : BitVec 4)
  -- marker bytes on the wire (30_encoding.md R86)
  | headerA
  | endA
  | headerB
  | endB
  -- the closed set of mnemonics (30_encoding.md R87)
  | mnemGoo
  | mnemEnd
  | mnemSpd
  | mnemAlt
  | mnemMan
  | mnemLed
deriving DecidableEq, Repr

/-- A line of assembly (30_encoding.md R93): a mnemonic of R81 with its operand as the number it is written as, or a
pseudo-operation of R94. Not every line can be assembled: see `AsmLine.wellFormed`. -/
inductive AsmLine where
  | nop
  | pushRx (b : Nat)
  | pushTx (b : Nat)
  | popRx
  | popTx
  | emptyRx
  | emptyTx
  | frStep
  | frAck
  | frBody (k : Nat)
  | txReady
  | pump
  | ieWrite (v : Nat)
  | clrStatus (m : Nat)
  | rdReg (r : Nat)
  | frameTxA (t0 t1 t2 : Byte) (v : Int) (w : Nat)   -- `FRAME_TX_A "t0t1t2", v, W`
  | critEnter                                        -- `CRIT_ENTER`
  | critExit (s : Byte)                              -- `CRIT_EXIT s`
deriving DecidableEq, Repr

end Sys2Proof
end

