-- ==== Sys2Proof/WellFormed.lean ====
section
/-! DEFINITION. Checks on what is written: the operand of an assembly line fits the field the encoding gives it
(30_encoding.md R83), `FRAME_TX_A` has a width that expands (R94), and the build parameters obey 00_scope.md R7.
A term of `Instr` needs no check: its operands have the width of their fields. -/

namespace Sys2Proof

/-- The assembler accepts the line (30_encoding.md R83, R94). `RD_REG 15` is accepted: it is encoded legally and
refused when executed (R84). -/
def AsmLine.wellFormed : AsmLine → Bool
  | .nop => true
  | .pushRx b => b < 256
  | .pushTx b => b < 256
  | .popRx => true
  | .popTx => true
  | .emptyRx => true
  | .emptyTx => true
  | .frStep => true
  | .frAck => true
  | .frBody k => k < 256
  | .txReady => true
  | .pump => true
  | .ieWrite v => v < 4
  | .clrStatus m => m < 32
  | .rdReg r => r < 16
  | .frameTxA _ _ _ _ w => w == 2 || w == 4
  | .critEnter => true
  | .critExit _ => true

/-- The constraints of 00_scope.md R7 on the build parameters. -/
abbrev Config.wf (c : Config) : Prop :=
  1 ≤ c.n ∧ c.n ≤ 255 ∧ (c.grammar = .A → 7 ≤ c.bodyMax) ∧ c.bodyMax ≤ 254

end Sys2Proof
end

