-- ==== Sys2Proof/Decode.lean ====
section
/-! DEFINITION. Decoding and encoding: the operation word (30_encoding.md R80 to R85), the marker bytes of the wire
(R86) and the mnemonic patterns (R87). Decoding is total and rejects by name. -/

namespace Sys2Proof

/-- Bits as the block meets them: a word an agent issues, a byte the framer takes from the wire, or the first three
body bytes of a Grammar A frame. -/
inductive Encoding where
  | op (w : OpWord)
  | wire (b : Byte)
  | mnemonic (p : Pattern)
deriving DecidableEq, Repr

/-- Why bits spell no row of the opcode table. -/
inductive DecodeError where
  | reservedOp    -- `OP` is 0xC to 0xF (30_encoding.md R84)
  | reservedX     -- a zero-field requirement on `X` is broken (R82)
  | reservedD     -- a zero-field requirement on `D` is broken (R82)
  | notMarker     -- a wire byte that is no marker of either grammar (R86)
  | notMnemonic   -- three bytes outside the closed set of mnemonics (R87)
  | badWidth      -- the opcode table has no row of this many bits
deriving DecidableEq, Repr

/-- `HEADER` of 00_scope.md R7. -/
def headerByte : Grammar → Byte
  | .A => 0x24#8
  | .B => 0x00#8

/-- `END` of 00_scope.md R7. -/
def endByte : Grammar → Byte
  | .A => 0x23#8
  | .B => 0xFF#8

/-- The 24-bit patterns of 30_encoding.md R87, `{BODY[0], BODY[1], BODY[2]}`. -/
def patternGoo : Pattern := 0x474F4F#24
def patternEnd : Pattern := 0x454E44#24
def patternSpd : Pattern := 0x535044#24
def patternAlt : Pattern := 0x414C54#24
def patternMan : Pattern := 0x4D414E#24
def patternLed : Pattern := 0x4C4544#24

/-- The field `OP` (30_encoding.md R80). -/
def fieldOp (w : OpWord) : BitVec 4 := w.extractLsb' 12 4

/-- The field `X` (30_encoding.md R80). -/
def fieldX (w : OpWord) : BitVec 4 := w.extractLsb' 8 4

/-- The field `D` (30_encoding.md R80). -/
def fieldD (w : OpWord) : Byte := w.extractLsb' 0 8

/-- `X` must be 0 and `D` must have zeros from bit `lo` up (30_encoding.md R82); `X` is checked first (R85). -/
def zeroChecked (w : OpWord) (lo : Nat) (i : Instr) : Except DecodeError Instr :=
  if fieldX w ≠ 0#4 then .error .reservedX
  else if fieldD w >>> lo ≠ 0#8 then .error .reservedD
  else .ok i

/-- As `zeroChecked`, for `OP` 1 to 3, whose bit `X[0]` is the ring select `I` (30_encoding.md R82). -/
def ringChecked (w : OpWord) (lo : Nat) (onRx onTx : Instr) : Except DecodeError Instr :=
  if fieldX w >>> 1 ≠ 0#4 then .error .reservedX
  else if fieldD w >>> lo ≠ 0#8 then .error .reservedD
  else if fieldX w = 0#4 then .ok onRx else .ok onTx

/-- The opcode map of 30_encoding.md R81: `OP`, then `X`, then the zero bits of `D` (R85). -/
def decodeOp (w : OpWord) : Except DecodeError Instr :=
  match (fieldOp w).toNat with
  | 0x0 => zeroChecked w 0 .nop
  | 0x1 => ringChecked w 8 (.pushRx (fieldD w)) (.pushTx (fieldD w))
  | 0x2 => ringChecked w 0 .popRx .popTx
  | 0x3 => ringChecked w 0 .emptyRx .emptyTx
  | 0x4 => zeroChecked w 0 .frStep
  | 0x5 => zeroChecked w 0 .frAck
  | 0x6 => zeroChecked w 8 (.frBody (fieldD w))
  | 0x7 => zeroChecked w 0 .txReady
  | 0x8 => zeroChecked w 0 .pump
  | 0x9 => zeroChecked w 2 (.ieWrite ((fieldD w).extractLsb' 0 2))
  | 0xA => zeroChecked w 5 (.clrStatus ((fieldD w).extractLsb' 0 5))
  | 0xB => zeroChecked w 4 (.rdReg ((fieldD w).extractLsb' 0 4))
  | _ => .error .reservedOp

/-- The marker bytes of both grammars (30_encoding.md R86). Which of them a block takes as a marker is its grammar's
matter: see `byteClass`. -/
def decodeWire (b : Byte) : Except DecodeError Instr :=
  if b = headerByte .A then .ok .headerA
  else if b = endByte .A then .ok .endA
  else if b = headerByte .B then .ok .headerB
  else if b = endByte .B then .ok .endB
  else .error .notMarker

/-- The closed set of mnemonics, matched on all three bytes (30_encoding.md R87, 42_framer.md R146). -/
def decodeMnemonic (p : Pattern) : Except DecodeError Instr :=
  if p = patternGoo then .ok .mnemGoo
  else if p = patternEnd then .ok .mnemEnd
  else if p = patternSpd then .ok .mnemSpd
  else if p = patternAlt then .ok .mnemAlt
  else if p = patternMan then .ok .mnemMan
  else if p = patternLed then .ok .mnemLed
  else .error .notMnemonic

/-- The decoder, total on any bits. -/
def decode : Encoding → Except DecodeError Instr
  | .op w => decodeOp w
  | .wire b => decodeWire b
  | .mnemonic p => decodeMnemonic p

/-- An operation word from its three fields (30_encoding.md R80). -/
def opWord (op x : BitVec 4) (d : Byte) : OpWord := op ++ x ++ d

/-- The encoder, from the same tables (30_encoding.md R81, R86, R87). -/
def encode : Instr → Encoding
  | .nop => .op (opWord 0x0#4 0#4 0#8)
  | .pushRx b => .op (opWord 0x1#4 0#4 b)
  | .pushTx b => .op (opWord 0x1#4 1#4 b)
  | .popRx => .op (opWord 0x2#4 0#4 0#8)
  | .popTx => .op (opWord 0x2#4 1#4 0#8)
  | .emptyRx => .op (opWord 0x3#4 0#4 0#8)
  | .emptyTx => .op (opWord 0x3#4 1#4 0#8)
  | .frStep => .op (opWord 0x4#4 0#4 0#8)
  | .frAck => .op (opWord 0x5#4 0#4 0#8)
  | .frBody k => .op (opWord 0x6#4 0#4 k)
  | .txReady => .op (opWord 0x7#4 0#4 0#8)
  | .pump => .op (opWord 0x8#4 0#4 0#8)
  | .ieWrite v => .op (opWord 0x9#4 0#4 (v.setWidth 8))
  | .clrStatus m => .op (opWord 0xA#4 0#4 (m.setWidth 8))
  | .rdReg r => .op (opWord 0xB#4 0#4 (r.setWidth 8))
  | .headerA => .wire (headerByte .A)
  | .endA => .wire (endByte .A)
  | .headerB => .wire (headerByte .B)
  | .endB => .wire (endByte .B)
  | .mnemGoo => .mnemonic patternGoo
  | .mnemEnd => .mnemonic patternEnd
  | .mnemSpd => .mnemonic patternSpd
  | .mnemAlt => .mnemonic patternAlt
  | .mnemMan => .mnemonic patternMan
  | .mnemLed => .mnemonic patternLed

/-- Bits numbered as spec/opcode_table.json numbers them, by the width of the row: 16 for an operation word, 8 for a
wire byte, 24 for a mnemonic, whose row has the first body byte in bits 23:16 (log 18). -/
def tableEncoding (nbits w : Nat) : Option Encoding :=
  match nbits with
  | 8 => some (.wire (BitVec.ofNat 8 w))
  | 16 => some (.op (BitVec.ofNat 16 w))
  | 24 => some (.mnemonic (BitVec.ofNat 24 w))
  | _ => none

/-- The instruction the decoder reads from a row's bits. -/
def decodeTableWord (nbits w : Nat) : Option Instr :=
  match tableEncoding nbits w with
  | none => none
  | some e => (decode e).toOption

end Sys2Proof
end

