-- ==== Sys2Proof/Machine/State.lean ====
section
/-! DEFINITION. The machine's state as plain data: every piece of state of 10_state.md, the build parameters it is a
block of, and the model's own fields (the interleaving still to come, the issuing agent, the returned byte, the draw
counter). The state right after reset (10_state.md R53). -/

namespace Sys2Proof.Machine

/-- The three agents (10_state.md R50). -/
inductive Agent where
  | main   -- the main loop
  | rxi    -- the receive event
  | txi    -- the transmit-ready event
deriving DecidableEq, Repr

/-- The two rings (10_state.md R22), the ring select `I` of 30_encoding.md R82. -/
inductive RingSel where
  | rx
  | tx
deriving DecidableEq, Repr

/-- The framer states (10_state.md R28). -/
inductive FState where
  | ah   -- `AwaitingHeader`
  | ab   -- `AccumulatingBody`
  | ad   -- `AwaitingDispatch`
deriving DecidableEq, Repr

/-- The command types (10_state.md R31). `cEnd` is the mnemonic `END`. -/
inductive Cmd where
  | none
  | goo
  | cEnd
  | spd
  | alt
  | man
  | led
  | undef
deriving DecidableEq, Repr

/-- The error events with the info each records (60_exceptions.md R212). -/
inductive Event where
  | overflow (q : RingSel) (lost stored : Byte)   -- `RX_OVERFLOW`, `TX_OVERFLOW`
  | underflow (q : RingSel)                       -- `RX_UNDERFLOW`, `TX_UNDERFLOW`
  | framingLength (len : Byte) (cmd : Cmd)        -- `FRAMING_LENGTH`
  | framingRestart (len : Byte)                   -- `FRAMING_RESTART`
deriving DecidableEq, Repr

/-- A record of the event history: code and info are the event's, the agent is the one whose step raised it
(10_state.md R46, 60_exceptions.md R213). -/
structure EventRec where
  event : Event
  agent : Agent
deriving DecidableEq, Repr

/-- The reasons of `refuse` (60_exceptions.md R219). -/
inductive RefuseReason where
  | reservedEncoding   -- `RESERVED_ENCODING`
  | wrongAgent         -- `WRONG_AGENT`
  | reservedRegister   -- `RESERVED_REGISTER`
deriving DecidableEq, Repr

/-- Why the machine stops with a fault. -/
inductive Fault where
  /-- A ring access names a slot at or past N, which does not exist (20_memory.md R60, R64). Raised by the pushes and
  the pops; no state that a run reaches raises it (10_state.md R25). Safe (log 9). -/
  | slotOutOfRange
deriving DecidableEq, Repr

/-- Why the machine refuses to step. -/
inductive Refusal where
  /-- An instruction without a meaning. No arm of this model raises it. Safe. -/
  | notModelled (mnemonic : String)
  /-- `REFUSED` is set and the turn is an agent's: no agent has a step (10_state.md R51). Raised by `step` alone.
  Safe (log 7). -/
  | runRefused (why : RefuseReason)
deriving DecidableEq, Repr

/-- Byte storage by index, as a list of the slots that hold something else than an unlisted slot reads as. -/
abbrev Memory := List Host.Cell

/-- A ring (10_state.md R22). The indices are numbers: their width is that of `N - 1`. -/
structure Ring where
  mem  : Memory
  wr   : Nat
  rd   : Nat
  full : Bool
deriving DecidableEq, Repr

/-- The framer (10_state.md R28 to R32). -/
structure Framer where
  fst     : FState
  body    : Memory
  bodyLen : Byte
  cmd     : Cmd
  width   : Byte    -- two's complement
deriving DecidableEq, Repr

/-- One turn of the interleaving (10_state.md R52, log 2). -/
inductive Turn where
  /-- The agent issues the operation word. For RXI and TXI any other word than their event's is a misuse that
  60_exceptions.md R219 refuses. -/
  | issue (a : Agent) (w : OpWord)
  /-- RXI's step: the receive event (41_transport.md R120). -/
  | receive
  /-- TXI's step: the transmit-ready event (41_transport.md R122). -/
  | transmitReady
  /-- The block's reset (70_reset_and_hazards.md R240), which no agent issues. -/
  | reset
deriving DecidableEq, Repr

/-- The machine's state. -/
structure State where
  cfg     : Config               -- the build parameters (10_state.md R54); no step changes them
  rx      : Ring                 -- `RX`
  tx      : Ring                 -- `TX`
  fr      : Framer               -- `FR`
  status  : BitVec 5             -- `STATUS[4:0]`; bits 7:5 read 0 (10_state.md R36)
  rxie    : Bool                 -- `CTRL.RXIE` (10_state.md R37)
  txie    : Bool                 -- `CTRL.TXIE`
  txAct   : Bool                 -- `CTRL.TX_ACT`
  evh     : List EventRec        -- `EVH`, oldest first (10_state.md R46)
  txd     : List Byte            -- `TXD`, oldest first (10_state.md R47)
  rxline  : List Byte            -- `RXLINE`, next first (10_state.md R48)
  refused : Option RefuseReason  -- `REFUSED`, held with its reason (10_state.md R49)
  agent   : Agent                -- the model's own: the agent whose operation is executed
  result  : Option Byte          -- the model's own: the byte the last operation returned (10_state.md R20)
  turns   : List Turn            -- the model's own: the interleaving still to come
  draws   : Nat                  -- the model's own: how many free draws have been made
deriving DecidableEq, Repr

/-- The framer with no body (42_framer.md R142, R143, R144, R150), in the given state. -/
def Framer.cleared (f : Framer) (st : FState) : Framer :=
  { f with fst := st, bodyLen := 0x00#8, cmd := .none, width := 0xFF#8 }

/-- The state right after reset of a block with the given parameters and line input (10_state.md R53). -/
def State.resetFor (c : Config) (line : List Byte) : State where
  cfg := c
  rx := { mem := [], wr := 0, rd := 0, full := false }
  tx := { mem := [], wr := 0, rd := 0, full := false }
  fr := { fst := .ah, body := [], bodyLen := 0x00#8, cmd := .none, width := 0xFF#8 }
  status := 0#5
  rxie := false
  txie := false
  txAct := false
  evh := []
  txd := []
  rxline := line
  refused := none
  agent := .main
  result := none
  turns := []
  draws := 0

/-- The machine right after reset, with nothing placed: the parameters of 00_scope.md R7, Grammar A (log 1), no line
input. -/
def State.reset : State := State.resetFor (Config.build .A) []

end Sys2Proof.Machine
end

