-- ==== Sys2Proof/Machine/Flags.lean ====
section
/-! DEFINITION. The flag computations: the STATUS bit and code of each event (10_state.md R36, 60_exceptions.md R212),
setting and clearing the sticky bits (R211, 44_control.md R192), and the result bits of `FR_STEP` (42_framer.md
R141). -/

namespace Sys2Proof.Machine

/-- The STATUS bit of an event, as the mask with that bit (60_exceptions.md R212). -/
def Event.bit : Event → BitVec 5
  | .overflow .rx _ _ => 0b00001#5
  | .underflow .rx => 0b00010#5
  | .overflow .tx _ _ => 0b00100#5
  | .underflow .tx => 0b01000#5
  | .framingLength _ _ => 0b10000#5
  | .framingRestart _ => 0b10000#5

/-- The event code (60_exceptions.md R212). -/
def Event.code : Event → Nat
  | .overflow .rx _ _ => 1
  | .underflow .rx => 2
  | .overflow .tx _ _ => 3
  | .underflow .tx => 4
  | .framingLength _ _ => 5
  | .framingRestart _ => 6

/-- The only agent whose step raises the event (60_exceptions.md R213). -/
def Event.raiser : Event → Agent
  | .overflow .rx _ _ => .rxi
  | _ => .main

/-- `STATUS` with the event's bit set (60_exceptions.md R211). -/
def statusSet (st : BitVec 5) (e : Event) : BitVec 5 := st ||| e.bit

/-- `STATUS & ~m` (44_control.md R192). -/
def statusClear (st m : BitVec 5) : BitVec 5 := st &&& ~~~m

/-- A one-bit field as the bit of a byte. -/
def bitAt (i : Nat) (b : Bool) : Byte := if b then 1#8 <<< i else 0#8

/-- `{00000, done, err, consumed}` (42_framer.md R141). -/
def stepResult (done err consumed : Bool) : Byte := bitAt 2 done ||| bitAt 1 err ||| bitAt 0 consumed

end Sys2Proof.Machine
end

