-- ==== Sys2Proof/Machine/Operands.lean ====
section
/-! DEFINITION. What operations read: the slots of a memory, emptiness and occupancy of a ring (10_state.md R23, R24),
byte classes (42_framer.md R140), the mnemonic table (30_encoding.md R87), the frame check (42_framer.md R147, R148)
and the logical registers (10_state.md R35 to R45). -/

namespace Sys2Proof.Machine

/-- What a slot that a memory does not list reads as (70_reset_and_hazards.md R242 allows any byte; log 8). -/
def Memory.unlisted : Byte := 0x00#8

/-- The byte in a slot. -/
def Memory.read (m : Memory) (i : Nat) : Byte :=
  match m with
  | [] => Memory.unlisted
  | c :: rest => if c.1 = i then c.2 else Memory.read rest i

/-- `Empty(q)` (10_state.md R23). -/
def Ring.isEmpty (q : Ring) : Bool := q.wr == q.rd && !q.full

/-- `Count(q)` of a ring of capacity `n` (10_state.md R24). -/
def Ring.count (n : Nat) (q : Ring) : Nat := if q.full then n else (q.wr + (n - q.rd)) % n

/-- The unread bytes, oldest first (10_state.md R26). -/
def Ring.unread (n : Nat) (q : Ring) : List Byte :=
  (List.range (q.count n)).map fun j => q.mem.read ((q.rd + j) % n)

/-- The ring an operation's bit `I` selects (40_ring_buffer.md R100). -/
def State.ring (s : State) : RingSel → Ring
  | .rx => s.rx
  | .tx => s.tx

/-- The classes of 42_framer.md R140. -/
inductive ByteClass where
  | hdr
  | endm
  | data
deriving DecidableEq, Repr

/-- The class of a byte in a build of the grammar (42_framer.md R140). -/
def byteClass (g : Grammar) (b : Byte) : ByteClass :=
  if b = headerByte g then .hdr else if b = endByte g then .endm else .data

/-- The numeric code of a framer state (10_state.md R28). -/
def FState.code : FState → Byte
  | .ah => 0x00#8
  | .ab => 0x01#8
  | .ad => 0x02#8

/-- The numeric code of a command type (10_state.md R31). -/
def Cmd.code : Cmd → Byte
  | .none => 0x00#8
  | .goo => 0x01#8
  | .cEnd => 0x02#8
  | .spd => 0x03#8
  | .alt => 0x04#8
  | .man => 0x05#8
  | .led => 0x06#8
  | .undef => 0x07#8

/-- The expected value-field width of a command type (10_state.md R32, 30_encoding.md R87); 0xFF is -1. -/
def Cmd.width : Cmd → Byte
  | .none => 0xFF#8
  | .goo => 0x04#8
  | .cEnd => 0x00#8
  | .spd => 0x04#8
  | .alt => 0x04#8
  | .man => 0x02#8
  | .led => 0x02#8
  | .undef => 0xFF#8

/-- The command type of a pattern (42_framer.md R146): `UNDEF` outside the closed set. -/
def lookupCmd (p : Pattern) : Cmd :=
  match decodeMnemonic p with
  | .ok .mnemGoo => .goo
  | .ok .mnemEnd => .cEnd
  | .ok .mnemSpd => .spd
  | .ok .mnemAlt => .alt
  | .ok .mnemMan => .man
  | .ok .mnemLed => .led
  | _ => .undef

/-- `{BODY[0], BODY[1], BODY[2]}` (42_framer.md R146). -/
def Framer.pattern (f : Framer) : Pattern := f.body.read 0 ++ f.body.read 1 ++ f.body.read 2

/-- `FrameOK()`: Grammar A by 42_framer.md R147, Grammar B by R148. -/
def frameOK (c : Config) (f : Framer) : Bool :=
  match c.grammar with
  | .A => 3 ≤ f.bodyLen.toNat && 0 ≤ f.width.toInt && (f.bodyLen.toNat : Int) == 3 + f.width.toInt
  | .B => f.bodyLen.toNat ≤ c.bodyMax

/-- `STATUS` as register 0 reads it: bits 7:5 read 0 (10_state.md R36). -/
def State.statusReg (s : State) : Byte := s.status.setWidth 8

/-- `CTRL` as register 1 reads it (10_state.md R37). -/
def State.ctrlReg (s : State) : Byte := bitAt 0 s.rxie ||| bitAt 1 s.txie ||| bitAt 2 s.txAct

/-- `CFG` as register 13 reads it (10_state.md R44). -/
def cfgReg : Grammar → Byte
  | .A => 0x00#8
  | .B => 0x01#8

/-- `Reg(r)` (10_state.md R35 to R45); register 15 is reserved. -/
def State.readReg (s : State) (r : BitVec 4) : Option Byte :=
  match r.toNat with
  | 0 => some s.statusReg
  | 1 => some s.ctrlReg
  | 2 => some s.fr.fst.code
  | 3 => some s.fr.bodyLen
  | 4 => some s.fr.cmd.code
  | 5 => some s.fr.width
  | 6 => some (BitVec.ofNat 8 (s.rx.count s.cfg.n))
  | 7 => some (BitVec.ofNat 8 (s.tx.count s.cfg.n))
  | 8 => some (BitVec.ofNat 8 s.rx.wr)
  | 9 => some (BitVec.ofNat 8 s.rx.rd)
  | 10 => some (BitVec.ofNat 8 s.tx.wr)
  | 11 => some (BitVec.ofNat 8 s.tx.rd)
  | 12 => some (bitAt 0 s.rx.full ||| bitAt 1 s.tx.full)
  | 13 => some (cfgReg s.cfg.grammar)
  | 14 => some (BitVec.ofNat 8 s.cfg.n)
  | _ => none

/-- `FR_BODY k` reads this byte (42_framer.md R151). -/
def State.bodyByte (s : State) (k : Byte) : Byte :=
  if k.toNat < min s.fr.bodyLen.toNat s.cfg.bodyMax then s.fr.body.read k.toNat else 0x00#8

/-- The agent permitted to issue an operation (10_state.md R50). The wire bytes and the mnemonics are what the framer
meets inside MAIN's `FR_STEP` (10_state.md R34). -/
def Instr.agent : Instr → Agent
  | .pushRx _ => .rxi
  | .txReady => .txi
  | _ => .main

end Sys2Proof.Machine
end

