-- ==== Sys2Proof/Machine/Ops.lean ====
section
/-! DEFINITION. The shared operations: memory writes, the ring primitives `RingPush` and `RingPop` (40_ring_buffer.md
R101, R104), `EmptySeen` (20_memory.md R66), raising an event (60_exceptions.md R211), refusing (R219), handing a
byte to the line (10_state.md R47), the framer's arms (42_framer.md R142 to R146) and the block's reset
(70_reset_and_hazards.md R240). The block has no exception entry and no return from one (60_exceptions.md R210,
R224, R225): raising an event is its whole error mechanism. -/

namespace Sys2Proof.Machine

/-- What an operation answers: a value with no stop, or why the machine stops. -/
abbrev Answer (α : Type) := Host.Outcome α Fault Refusal

/-- Go on with the value of an answer. -/
def andThen {α β : Type} (o : Answer α) (f : α → Answer β) : Answer β :=
  match o with
  | .next a => f a
  | .fault r => .fault r
  | .refused r => .refused r

/-- Write a slot, keeping the canonical form: slots rising, none listed that reads as an unlisted one. -/
def Memory.write (m : Memory) (i : Nat) (v : Byte) : Memory :=
  match m with
  | [] => if v = Memory.unlisted then [] else [(i, v)]
  | c :: rest =>
    if i < c.1 then (if v = Memory.unlisted then c :: rest else (i, v) :: c :: rest)
    else if i = c.1 then (if v = Memory.unlisted then rest else (i, v) :: rest)
    else c :: Memory.write rest i v

/-- The canonical form: slots strictly rising, no entry equal to what an unlisted slot reads as. -/
abbrev Memory.wf (m : Memory) : Prop :=
  m.Pairwise (fun x y => x.1 < y.1) ∧ ∀ c ∈ m, c.2 ≠ Memory.unlisted

/-- Every listed slot exists in a storage of `n` bytes. -/
abbrev Memory.below (n : Nat) (m : Memory) : Prop := ∀ c ∈ m, c.1 < n

/-- `result <- v` (00_scope.md R9). -/
def State.withResult (s : State) (v : Byte) : State := { s with result := some v }

/-- Put a ring back. -/
def State.setRing (s : State) (q : RingSel) (r : Ring) : State :=
  match q with
  | .rx => { s with rx := r }
  | .tx => { s with tx := r }

/-- Put the framer back. -/
def State.setFramer (s : State) (f : Framer) : State := { s with fr := f }

/-- `raise E(info)`: append the record to `EVH`, set the sticky bit, go on (60_exceptions.md R211). -/
def State.raise (s : State) (e : Event) : State :=
  { s with status := statusSet s.status e, evh := s.evh ++ [⟨e, s.agent⟩] }

/-- `refuse(reason)`: mark `REFUSED`, change no other state, return no result (60_exceptions.md R219). -/
def State.refuse (s : State) (why : RefuseReason) : State := { s with refused := some why, result := none }

/-- `emit(b)`: hand a byte to the line (00_scope.md R9). -/
def State.emit (s : State) (b : Byte) : State := { s with txd := s.txd ++ [b] }

/-- Run the operation if the issuing agent is the one the permission table lists, else refuse (10_state.md R50,
60_exceptions.md R219). -/
def issuedBy (a : Agent) (s : State) (k : State → Answer State) : Answer State :=
  if s.agent = a then k s else .next (s.refuse .wrongAgent)

/-- `RingPush` on a ring of capacity `n` (40_ring_buffer.md R101): the ring after, and the overwritten byte if the ring
was full. None where the slot written does not exist. -/
def Ring.push (n : Nat) (q : Ring) (b : Byte) : Option (Ring × Option Byte) :=
  if q.wr < n then
    let wr' := (q.wr + 1) % n
    let mem' := q.mem.write q.wr b
    if q.full then
      some ({ mem := mem', wr := wr', rd := wr', full := true }, some (q.mem.read q.wr))
    else
      some ({ mem := mem', wr := wr', rd := q.rd, full := wr' == q.rd }, none)
  else none

/-- The taking arm of `RingPop` on a ring of capacity `n` (40_ring_buffer.md R104): the byte at the read index and the
ring after. None where the slot read does not exist. -/
def Ring.pop (n : Nat) (q : Ring) : Option (Byte × Ring) :=
  if q.rd < n then
    some (q.mem.read q.rd, { q with rd := (q.rd + 1) % n, full := false })
  else none

/-- `RingPush(q, b)` in the machine: overflow is reported, not prevented (40_ring_buffer.md R101). -/
def pushRing (q : RingSel) (b : Byte) (s : State) : Answer State :=
  match (s.ring q).push s.cfg.n b with
  | none => .fault .slotOutOfRange
  | some (r, none) => .next (s.setRing q r)
  | some (r, some lost) => .next ((s.setRing q r).raise (.overflow q lost b))

/-- `RingPop(q)` in the machine: an empty ring is left as it is, an underflow is raised and the sentinel 0x00 returned
(40_ring_buffer.md R104). -/
def popRing (q : RingSel) (s : State) : Answer (Byte × State) :=
  if (s.ring q).isEmpty then .next (0x00#8, s.raise (.underflow q))
  else
    match (s.ring q).pop s.cfg.n with
    | none => .fault .slotOutOfRange
    | some (b, r) => .next (b, s.setRing q r)

/-- `EmptySeen(q)` (20_memory.md R66): exact with `STALE_EMPTY = false`; else a non-empty ring's answer is a free draw
(log 6). -/
def emptySeen (q : RingSel) (s : State) : Bool × State :=
  if (s.ring q).isEmpty then (true, s)
  else if s.cfg.staleEmpty then (Config.staleDraw s.draws, { s with draws := s.draws + 1 })
  else (false, s)

/-- `result <- zext_8(RingEmpty(q))` (40_ring_buffer.md R107 to R109). -/
def emptyQuery (q : RingSel) (s : State) : State :=
  match emptySeen q s with
  | (e, s') => s'.withResult (bitAt 0 e)

/-- Pop a byte of `TX` and hand it to the line (41_transport.md R122, 43_tx_frame_pump.md R170). -/
def sendByte (s : State) : Answer State :=
  andThen (popRing .tx s) fun p => .next (p.2.emit p.1)

/-- The appended body: the byte is stored if it fits, the length saturates at overlength (42_framer.md R145). -/
def Framer.append (c : Config) (f : Framer) (b : Byte) : Framer :=
  { f with
    body := if f.bodyLen.toNat < c.bodyMax then f.body.write f.bodyLen.toNat b else f.body
    bodyLen := BitVec.ofNat 8 (min (f.bodyLen.toNat + 1) (c.bodyMax + 1)) }

/-- `(FR.CMD, FR.WIDTH) <- Lookup(BODY[0], BODY[1], BODY[2])` (42_framer.md R145, R146). -/
def Framer.lookup (f : Framer) : Framer :=
  { f with cmd := lookupCmd f.pattern, width := (lookupCmd f.pattern).width }

/-- The framer after a data byte (42_framer.md R145): appended, and in Grammar A looked up at the third byte. -/
def Framer.collect (c : Config) (f : Framer) (b : Byte) : Framer :=
  let f' := f.append c b
  if c.grammar = .A ∧ f'.bodyLen = 0x03#8 then f'.lookup else f'

/-- One row of the mnemonic lookup (42_framer.md R146): in Grammar A, with a body of exactly three bytes being
accumulated that equal the row's pattern, the row's command type and width are taken. Else nothing is (log 12). -/
def recognise (p : Pattern) (c : Cmd) (s : State) : State :=
  if s.cfg.grammar = .A ∧ s.fr.fst = .ab ∧ s.fr.bodyLen = 0x03#8 ∧ s.fr.pattern = p then
    s.setFramer { s.fr with cmd := c, width := c.width }
  else s

/-- Arm `(AB, ENDM)` (42_framer.md R143). -/
def closeFrame (s : State) : State :=
  if frameOK s.cfg s.fr then
    (s.setFramer { s.fr with fst := .ad }).withResult (stepResult true false true)
  else
    ((s.raise (.framingLength s.fr.bodyLen s.fr.cmd)).setFramer (s.fr.cleared .ah)).withResult
      (stepResult false true true)

/-- Arm `(AB, HDR)` (42_framer.md R144). -/
def restartFrame (s : State) : State :=
  ((s.raise (.framingRestart s.fr.bodyLen)).setFramer (s.fr.cleared .ab)).withResult (stepResult false true true)

/-- What the framer does with a byte of the wire when it takes it (42_framer.md R141, the arms R142 to R145, R149). -/
def takeByte (b : Byte) (s : State) : State :=
  match s.fr.fst, byteClass s.cfg.grammar b with
  | .ah, .hdr => (s.setFramer (s.fr.cleared .ab)).withResult (stepResult false false true)
  | .ah, .endm => s.withResult (stepResult false false true)
  | .ah, .data => s.withResult (stepResult false false true)
  | .ab, .endm => closeFrame s
  | .ab, .hdr => restartFrame s
  | .ab, .data => (s.setFramer (s.fr.collect s.cfg b)).withResult (stepResult false false true)
  | .ad, _ => s.withResult 0x00#8

/-- The block's reset (70_reset_and_hazards.md R240): every piece of state at its value of 10_state.md R53. The
configuration, `RXLINE` and `REFUSED` stay, and storage is not cleared (R242). -/
def State.blockReset (s : State) : State :=
  { State.resetFor s.cfg s.rxline with
    rx := { mem := s.rx.mem, wr := 0, rd := 0, full := false }
    tx := { mem := s.tx.mem, wr := 0, rd := 0, full := false }
    fr := s.fr.cleared .ah
    refused := s.refused
    turns := s.turns
    draws := s.draws }

end Sys2Proof.Machine
end

