-- ==== Sys2Proof/Machine/Control.lean ====
section
/-! DEFINITION. The meanings of the control operations (44_control.md R190 to R193). -/

namespace Sys2Proof.Machine

/-- `NOP` (44_control.md R190). -/
def execNop (s : State) : Answer State :=
  issuedBy .main s fun s => .next (s.withResult 0x00#8)

/-- `IE_WRITE v` (44_control.md R191). -/
def execIeWrite (v : BitVec 2) (s : State) : Answer State :=
  issuedBy .main s fun s =>
    .next ({ s with rxie := v.getLsbD 0, txie := v.getLsbD 1 }.withResult 0x00#8)

/-- `CLR_STATUS m` (44_control.md R192). -/
def execClrStatus (m : BitVec 5) (s : State) : Answer State :=
  issuedBy .main s fun s => .next ({ s with status := statusClear s.status m }.withResult 0x00#8)

/-- `RD_REG r` (44_control.md R193): register 15 is refused. `RD_REG 15` issued by RXI or TXI meets two reasons of
60_exceptions.md R219, (b) and (c), which the spec does not order: that `WRONG_AGENT` is the one kept is a DESIGN CHOICE
(log 19). -/
def execRdReg (r : BitVec 4) (s : State) : Answer State :=
  issuedBy .main s fun s =>
    match s.readReg r with
    | some v => .next (s.withResult v)
    | none => .next (s.refuse .reservedRegister)

end Sys2Proof.Machine
end

