-- ==== Sys2Proof/Machine/Framing.lean ====
section
/-! DEFINITION. The meanings of the framer's operations (42_framer.md R141, R150, R151). -/

namespace Sys2Proof.Machine

/-- `FR_STEP` (42_framer.md R141): take at most one inbound byte; none in `AD` (R149), none where `RX` is seen empty. -/
def execFrStep (s : State) : Answer State :=
  issuedBy .main s fun s =>
    if s.fr.fst = .ad then .next (s.withResult 0x00#8)
    else
      match emptySeen .rx s with
      | (true, s') => .next (s'.withResult 0x00#8)
      | (false, s') => andThen (popRing .rx s') fun p => .next (takeByte p.1 p.2)

/-- `FR_ACK` (42_framer.md R150). -/
def execFrAck (s : State) : Answer State :=
  issuedBy .main s fun s =>
    if s.fr.fst = .ad then .next ((s.setFramer (s.fr.cleared .ah)).withResult 0x01#8)
    else .next (s.withResult 0x00#8)

/-- `FR_BODY k` (42_framer.md R151). -/
def execFrBody (k : Byte) (s : State) : Answer State :=
  issuedBy .main s fun s => .next (s.withResult (s.bodyByte k))

end Sys2Proof.Machine
end

