-- ==== Sys2Proof/Machine/RingBuffer.lean ====
section
/-! DEFINITION. The meanings of the ring buffer operations (40_ring_buffer.md R102 to R109). -/

namespace Sys2Proof.Machine

/-- `PUSH_RX b` (40_ring_buffer.md R102). That `b` is the head of `RXLINE`, and leaves it, is the receive event's part:
see `fetch` (41_transport.md R120). -/
def execPushRx (b : Byte) (s : State) : Answer State :=
  issuedBy .rxi s fun s => andThen (pushRing .rx b s) fun s' => .next (s'.withResult 0x00#8)

/-- `PUSH_TX b` (40_ring_buffer.md R103). -/
def execPushTx (b : Byte) (s : State) : Answer State :=
  issuedBy .main s fun s => andThen (pushRing .tx b s) fun s' => .next (s'.withResult 0x00#8)

/-- `POP_RX` (40_ring_buffer.md R105). -/
def execPopRx (s : State) : Answer State :=
  issuedBy .main s fun s => andThen (popRing .rx s) fun p => .next (p.2.withResult p.1)

/-- `POP_TX` (40_ring_buffer.md R106): nothing is emitted. -/
def execPopTx (s : State) : Answer State :=
  issuedBy .main s fun s => andThen (popRing .tx s) fun p => .next (p.2.withResult p.1)

/-- `EMPTY_RX` (40_ring_buffer.md R108). -/
def execEmptyRx (s : State) : Answer State :=
  issuedBy .main s fun s => .next (emptyQuery .rx s)

/-- `EMPTY_TX` (40_ring_buffer.md R109). -/
def execEmptyTx (s : State) : Answer State :=
  issuedBy .main s fun s => .next (emptyQuery .tx s)

end Sys2Proof.Machine
end

