-- ==== Sys2Proof/Machine/Transmit.lean ====
section
/-! DEFINITION. The meanings of the transmit side: the transmit-ready event (41_transport.md R122) and the output pump
(43_tx_frame_pump.md R170). -/

namespace Sys2Proof.Machine

/-- `TX_READY` (41_transport.md R122): idle the transmitter if `TX` is seen empty, else send one byte. -/
def execTxReady (s : State) : Answer State :=
  issuedBy .txi s fun s =>
    match emptySeen .tx s with
    | (true, s') => .next ({ s' with txAct := false }.withResult 0x00#8)
    | (false, s') => andThen (sendByte s') fun s'' => .next (s''.withResult 0x00#8)

/-- `PUMP` (43_tx_frame_pump.md R170): start transmission if the transmitter is idle and `TX` is not seen empty. -/
def execPump (s : State) : Answer State :=
  issuedBy .main s fun s =>
    if s.txAct then .next (s.withResult 0x00#8)
    else
      match emptySeen .tx s with
      | (true, s') => .next (s'.withResult 0x00#8)
      | (false, s') => andThen (sendByte s') fun s'' => .next ({ s'' with txAct := true }.withResult 0x01#8)

end Sys2Proof.Machine
end

