-- ==== Sys2Proof/Machine/Wire.lean ====
section
/-! DEFINITION. The meanings of the wire encoding's rows. A marker byte means what the framer does when it takes that
byte (30_encoding.md R86, 42_framer.md R140 to R145; log 11); a mnemonic means its row of the lookup (30_encoding.md
R87, 42_framer.md R146; log 12). Only MAIN changes the framer (10_state.md R34). -/

namespace Sys2Proof.Machine

/-- `HEADER_A`, the byte 0x24: the start marker of Grammar A, a data byte in Grammar B. -/
def execHeaderA (s : State) : Answer State :=
  issuedBy .main s fun s => .next (takeByte (headerByte .A) s)

/-- `END_A`, the byte 0x23: the end marker of Grammar A, a data byte in Grammar B. -/
def execEndA (s : State) : Answer State :=
  issuedBy .main s fun s => .next (takeByte (endByte .A) s)

/-- `HEADER_B`, the byte 0x00: the start marker of Grammar B, a data byte in Grammar A. -/
def execHeaderB (s : State) : Answer State :=
  issuedBy .main s fun s => .next (takeByte (headerByte .B) s)

/-- `END_B`, the byte 0xFF: the end marker of Grammar B, a data byte in Grammar A. -/
def execEndB (s : State) : Answer State :=
  issuedBy .main s fun s => .next (takeByte (endByte .B) s)

/-- `MNEM_GOO`: `CMD` 1, width 4. -/
def execMnemGoo (s : State) : Answer State :=
  issuedBy .main s fun s => .next (recognise patternGoo .goo s)

/-- `MNEM_END`: `CMD` 2, width 0. -/
def execMnemEnd (s : State) : Answer State :=
  issuedBy .main s fun s => .next (recognise patternEnd .cEnd s)

/-- `MNEM_SPD`: `CMD` 3, width 4. -/
def execMnemSpd (s : State) : Answer State :=
  issuedBy .main s fun s => .next (recognise patternSpd .spd s)

/-- `MNEM_ALT`: `CMD` 4, width 4. -/
def execMnemAlt (s : State) : Answer State :=
  issuedBy .main s fun s => .next (recognise patternAlt .alt s)

/-- `MNEM_MAN`: `CMD` 5, width 2. -/
def execMnemMan (s : State) : Answer State :=
  issuedBy .main s fun s => .next (recognise patternMan .man s)

/-- `MNEM_LED`: `CMD` 6, width 2. -/
def execMnemLed (s : State) : Answer State :=
  issuedBy .main s fun s => .next (recognise patternLed .led s)

end Sys2Proof.Machine
end

