-- ==== Sys2Proof/Machine/Dispatch.lean ====
section
/-! DEFINITION. The dispatch of an instruction to its meaning, one arm per constructor of Instr. -/

namespace Sys2Proof.Machine

/-- The meaning of an instruction in a state, issued by the agent the state names. -/
def exec (i : Instr) (s : State) : Host.Outcome State Fault Refusal :=
  match i with
  | .nop => Sys2Proof.Machine.execNop s
  | .pushRx b => Sys2Proof.Machine.execPushRx b s
  | .pushTx b => Sys2Proof.Machine.execPushTx b s
  | .popRx => Sys2Proof.Machine.execPopRx s
  | .popTx => Sys2Proof.Machine.execPopTx s
  | .emptyRx => Sys2Proof.Machine.execEmptyRx s
  | .emptyTx => Sys2Proof.Machine.execEmptyTx s
  | .frStep => Sys2Proof.Machine.execFrStep s
  | .frAck => Sys2Proof.Machine.execFrAck s
  | .frBody k => Sys2Proof.Machine.execFrBody k s
  | .txReady => Sys2Proof.Machine.execTxReady s
  | .pump => Sys2Proof.Machine.execPump s
  | .ieWrite v => Sys2Proof.Machine.execIeWrite v s
  | .clrStatus m => Sys2Proof.Machine.execClrStatus m s
  | .rdReg r => Sys2Proof.Machine.execRdReg r s
  | .headerA => Sys2Proof.Machine.execHeaderA s
  | .endA => Sys2Proof.Machine.execEndA s
  | .headerB => Sys2Proof.Machine.execHeaderB s
  | .endB => Sys2Proof.Machine.execEndB s
  | .mnemGoo => Sys2Proof.Machine.execMnemGoo s
  | .mnemEnd => Sys2Proof.Machine.execMnemEnd s
  | .mnemSpd => Sys2Proof.Machine.execMnemSpd s
  | .mnemAlt => Sys2Proof.Machine.execMnemAlt s
  | .mnemMan => Sys2Proof.Machine.execMnemMan s
  | .mnemLed => Sys2Proof.Machine.execMnemLed s

end Sys2Proof.Machine
end

