-- ==== Sys2Proof/Machine/Fetch.lean ====
section
/-! DEFINITION. Where an operation comes from: which agent has a step (10_state.md R51), what a turn of the
interleaving makes of the state and which word it issues (R50, R52, 41_transport.md R120, R122), and how a word is
placed so that the next turn runs it (log 3). -/

namespace Sys2Proof.Machine

/-- The agent has a step (10_state.md R51). MAIN has one whenever its program supplies an operation, which is what a
turn of MAIN is. -/
def enabled (a : Agent) (s : State) : Bool :=
  s.refused.isNone &&
    match a with
    | .main => true
    | .rxi => s.rxie && !s.rxline.isEmpty
    | .txi => s.txie && s.txAct

/-- The word `PUSH_RX b`, `0x1000 | b` (40_ring_buffer.md R102). -/
def pushRxWord (b : Byte) : OpWord := opWord 0x1#4 0#4 b

/-- The word `TX_READY` (41_transport.md R122). -/
def txReadyWord : OpWord := opWord 0x7#4 0#4 0#8

/-- The word `FR_STEP` (42_framer.md R141). -/
def frStepWord : OpWord := opWord 0x4#4 0#4 0#8

/-- What the next turn comes to. -/
inductive Fetched where
  | idle                                -- no turn is left
  | reset (s : State)                   -- the block is reset
  | stopped (why : RefuseReason)        -- an agent's turn, but `REFUSED` is set
  | held (s : State)                    -- the agent has no step: nothing but the turn is used up
  | word (w : OpWord) (s : State)       -- the state's agent issues the word
  | misissued (s : State)               -- RXI issues `PUSH_RX` of a byte that is not the head of `RXLINE`
deriving DecidableEq, Repr

/-- The turn is used up; these are left. -/
def State.withTurns (s : State) (rest : List Turn) : State := { s with turns := rest }

/-- The agent executes, with this much of the line input left. -/
def State.issuing (s : State) (a : Agent) (line : List Byte) : State := { s with agent := a, rxline := line }

/-- The agent issues the word, in a state whose turn is used up. RXI's `PUSH_RX` takes its byte from `RXLINE`
(10_state.md R50, 41_transport.md R120). -/
def issueFor (a : Agent) (w : OpWord) (s : State) : Fetched :=
  match s.refused with
  | some why => .stopped why
  | none =>
    if !enabled a s then .held s
    else
      match a, s.rxline with
      | .rxi, b :: rest =>
        if w = pushRxWord b then .word w (s.issuing .rxi rest)
        else if fieldOp w = 0x1#4 ∧ fieldX w = 0#4 then .misissued (s.issuing .rxi s.rxline)
        else .word w (s.issuing .rxi s.rxline)
      | _, _ => .word w (s.issuing a s.rxline)

/-- The next turn (10_state.md R52). -/
def fetch (s : State) : Fetched :=
  match s.turns with
  | [] => .idle
  | .reset :: rest => .reset (s.withTurns rest)
  | .issue a w :: rest => issueFor a w (s.withTurns rest)
  | .receive :: rest => issueFor .rxi (pushRxWord (s.rxline.headD 0x00#8)) (s.withTurns rest)
  | .transmitReady :: rest => issueFor .txi txReadyWord (s.withTurns rest)

/-- The turn is a step of the agent's own: the agent has a step, and it issues an operation it is permitted (10_state.md
R50, R51). For RXI and TXI that is their event, in whichever way the turn spells it: `receive` and `PUSH_RX` of the head of
`RXLINE` issued by RXI, `transmitReady` and `TX_READY` issued by TXI. -/
def takesStep (a : Agent) (t : Turn) (s : State) : Bool :=
  match fetch (s.withTurns [t]) with
  | .word w s' =>
    s'.agent == a &&
      match decodeOp w with
      | .ok i => Instr.agent i == a
      | .error _ => false
  | _ => false

/-- Put a byte before the oldest unread byte of a ring of capacity `n` (in a full ring, in its place), so that the next
pop returns it. -/
def Ring.placeOldest (n : Nat) (q : Ring) (b : Byte) : Ring :=
  if q.full then { q with mem := q.mem.write q.rd b }
  else
    let rd' := (q.rd + (n - 1)) % n
    { q with mem := q.mem.write rd' b, rd := rd', full := rd' == q.wr }

/-- The build the row of the opcode table belongs to: a marker or a mnemonic exists in one grammar only
(30_encoding.md R86, R87). -/
def rowGrammar : Instr → Option Grammar
  | .headerA | .endA | .mnemGoo | .mnemEnd | .mnemSpd | .mnemAlt | .mnemMan | .mnemLed => some .A
  | .headerB | .endB => some .B
  | _ => none

/-- Select a grammar, with its `BODY_MAX` where the build was of the other one, and exact emptiness tests. -/
def Config.select (c : Config) (g : Grammar) : Config :=
  if c.grammar = g then { c with staleEmpty := false }
  else { c with grammar := g, bodyMax := Config.defaultBodyMax g, staleEmpty := false }

/-- Make the very next turn the agent's that is permitted the operation word, with what its enabling needs. -/
def placeOpWord (w : OpWord) (s : State) : State :=
  match decodeOp w with
  | .ok (.pushRx b) =>
    { s with refused := none, rxie := true, rxline := b :: s.rxline, turns := .receive :: s.turns }
  | .ok .txReady => { s with refused := none, txie := true, txAct := true, turns := .transmitReady :: s.turns }
  | _ => { s with refused := none, turns := .issue .main w :: s.turns }

/-- Make the very next turn an `FR_STEP` that takes the byte, with the framer in the given state. -/
def placeByte (c : Config) (f : Framer) (b : Byte) (s : State) : State :=
  { s with
    cfg := c
    refused := none
    fr := f
    rx := s.rx.placeOldest c.n b
    turns := .issue .main frStepWord :: s.turns }

/-- A wire byte: the next step is an `FR_STEP` that takes it, in a build that has it as its marker. A framer that
takes no bytes is put back to `AH`. -/
def placeWireByte (b : Byte) (s : State) : State :=
  let g := match decodeWire b with
    | .ok i => (rowGrammar i).getD s.cfg.grammar
    | .error _ => s.cfg.grammar
  placeByte (Config.select s.cfg g) (if s.fr.fst = .ad then s.fr.cleared .ah else s.fr) b s

/-- A mnemonic: the next step is an `FR_STEP` that takes its third byte, in a Grammar A build whose framer has
accumulated the first two. -/
def placeMnemonic (p : Pattern) (s : State) : State :=
  let f := s.fr.cleared .ab
  placeByte (Config.select s.cfg .A)
    { f with body := (f.body.write 0 (p.extractLsb' 16 8)).write 1 (p.extractLsb' 8 8), bodyLen := 0x02#8 }
    (p.extractLsb' 0 8) s

/-- Place a row's bits where the next turn finds them (log 3). -/
def placeEncoding (e : Encoding) (s : State) : State :=
  match e with
  | .op w => placeOpWord w s
  | .wire b => placeWireByte b s
  | .mnemonic p => placeMnemonic p s

end Sys2Proof.Machine
end

