-- ==== Sys2Proof/Machine/Issue.lean ====
section
/-! DEFINITION. What issuing a word does: its instruction is executed, a reserved word is refused (30_encoding.md R84,
60_exceptions.md R219); and what each kind of turn comes to. -/

namespace Sys2Proof.Machine

/-- Execute the word the state's agent issues. -/
def issueWord (w : OpWord) (s : State) : Answer State :=
  match decodeOp w with
  | .ok i => exec i s
  | .error _ => .next (s.refuse .reservedEncoding)

/-- Carry out what was fetched. With no turn left nothing happens (log 2); a turn of an agent after a refusal is no step
(10_state.md R51, log 7). -/
def perform (f : Fetched) (s : State) : Answer State :=
  match f with
  | .idle => .next s
  | .reset s' => .next s'.blockReset
  | .stopped why => .refused (.runRefused why)
  | .held s' => .next s'
  | .word w s' => issueWord w s'
  | .misissued s' => .next (s'.refuse .wrongAgent)

end Sys2Proof.Machine
end

