-- ==== Sys2Proof/Machine/Step.lean ====
section
/-! DEFINITION. One step of the machine: the next turn of the interleaving (10_state.md R52), and the placing of an
instruction as the next one. -/

namespace Sys2Proof.Machine

/-- One step. -/
def step (s : State) : Host.Outcome State Fault Refusal := perform (fetch s) s

/-- The state in which the very next step runs the instruction with these bits, numbered as spec/opcode_table.json
numbers them (log 3). Bits of a width the table does not have place nothing. -/
def State.withFetchWord (s : State) (nbits w : Nat) : State :=
  match tableEncoding nbits w with
  | some e => placeEncoding e s
  | none => s

end Sys2Proof.Machine
end

