-- ==== Sys2Proof/Machine/Pseudo.lean ====
section
/-! DEFINITION. The pseudo-operations (30_encoding.md R94): `FRAME_TX_A` with its digits (43_tx_frame_pump.md R172,
R173), `CRIT_ENTER` and `CRIT_EXIT` (44_control.md R194), and what a line of assembly stands for (30_encoding.md
R93). -/

namespace Sys2Proof.Machine

/-- `HexDigit(d)` (43_tx_frame_pump.md R173): lowercase. -/
def hexDigit (d : Nat) : Byte :=
  if d ≤ 9 then BitVec.ofNat 8 (0x30 + d) else BitVec.ofNat 8 (0x61 + (d - 10))

/-- The low `w` hexadecimal digits of `v`, most significant first (43_tx_frame_pump.md R173). -/
def hexDigits (v : Nat) : Nat → List Byte
  | 0 => []
  | w + 1 => hexDigit ((v >>> (4 * w)) &&& 0xF) :: hexDigits v w

/-- The bytes of a response frame (43_tx_frame_pump.md R172), for the markers of the given grammar; none where the width
has no expansion. -/
def frameBytes (g : Grammar) (t0 t1 t2 : Byte) (v : Int) (w : Nat) : Option (List Byte) :=
  if w = 2 ∨ w = 4 then
    some ([headerByte g, t0, t1, t2] ++ hexDigits (v % (16 ^ w : Nat)).toNat w ++ [endByte g])
  else none

/-- `FRAME_TX_A "t0t1t2", v, W` as the operations it expands to (30_encoding.md R94). -/
def frameTxA (g : Grammar) (t0 t1 t2 : Byte) (v : Int) (w : Nat) : Option (List Instr) :=
  (frameBytes g t0 t1 t2 v w).map fun bs => bs.map Instr.pushTx

/-- `CRIT_ENTER` (30_encoding.md R94): MAIN keeps the result of the first operation. -/
def critEnter : List Instr := [.rdReg 1#4, .ieWrite 0#2]

/-- `CRIT_EXIT s` (30_encoding.md R94). -/
def critExit (s : Byte) : List Instr := [.ieWrite (s.extractLsb' 0 2)]

/-- The operations a line of assembly stands for, in a build of the grammar; none where the assembler rejects it
(30_encoding.md R93, R94). -/
def assemble (g : Grammar) (l : AsmLine) : Option (List Instr) :=
  if l.wellFormed then
    match l with
    | .nop => some [.nop]
    | .pushRx b => some [.pushRx (BitVec.ofNat 8 b)]
    | .pushTx b => some [.pushTx (BitVec.ofNat 8 b)]
    | .popRx => some [.popRx]
    | .popTx => some [.popTx]
    | .emptyRx => some [.emptyRx]
    | .emptyTx => some [.emptyTx]
    | .frStep => some [.frStep]
    | .frAck => some [.frAck]
    | .frBody k => some [.frBody (BitVec.ofNat 8 k)]
    | .txReady => some [.txReady]
    | .pump => some [.pump]
    | .ieWrite v => some [.ieWrite (BitVec.ofNat 2 v)]
    | .clrStatus m => some [.clrStatus (BitVec.ofNat 5 m)]
    | .rdReg r => some [.rdReg (BitVec.ofNat 4 r)]
    | .frameTxA t0 t1 t2 v w => frameTxA g t0 t1 t2 v w
    | .critEnter => some critEnter
    | .critExit s => some (critExit s)
  else none

/-- The word an operation is issued as; the wire bytes and the mnemonics are issued by no agent. -/
def Instr.word (i : Instr) : Option OpWord :=
  match encode i with
  | .op w => some w
  | _ => none

/-- The turns in which the agent issues the operations, one a turn (a pseudo-operation is not atomic, 30_encoding.md
R94). -/
def turnsOf (a : Agent) (is : List Instr) : List Turn := (is.filterMap Instr.word).map (Turn.issue a)

end Sys2Proof.Machine
end

