-- ==== Sys2Proof/Safety.lean ====
section
/-! DEFINITION. What claims are stated with: the invariants of the rings and the framer (10_state.md R25, R30, R32,
R33), of the event history (60_exceptions.md R213), the history of a single ring (20_memory.md R69), the framer fed
byte by byte (42_framer.md R153, 43_tx_frame_pump.md R175) and weak fairness (70_reset_and_hazards.md R254). -/

namespace Sys2Proof.Machine

/-- The ring invariants (10_state.md R25) and the form of the ring's storage. -/
abbrev Ring.ok (n : Nat) (q : Ring) : Prop :=
  q.wr < n ∧ q.rd < n ∧ (q.full = true → q.wr = q.rd) ∧ q.mem.wf ∧ q.mem.below n

/-- The framer invariants (10_state.md R30, R32, R33) and the form of the body storage. -/
abbrev Framer.ok (c : Config) (f : Framer) : Prop :=
  (f.fst = .ah → f.bodyLen = 0x00#8 ∧ f.cmd = .none ∧ f.width = 0xFF#8) ∧
  (f.cmd ≠ .none ↔ c.grammar = .A ∧ 3 ≤ f.bodyLen.toNat) ∧
  f.width = f.cmd.width ∧
  f.bodyLen.toNat ≤ c.bodyMax + 1 ∧
  (f.fst = .ad → f.bodyLen.toNat ≤ c.bodyMax ∧ frameOK c f = true) ∧
  f.body.wf ∧ f.body.below c.bodyMax

/-- The invariants every step keeps (10_state.md R25, R33), for parameters that obey 00_scope.md R7. -/
abbrev State.inv (s : State) : Prop :=
  s.cfg.wf ∧ s.rx.ok s.cfg.n ∧ s.tx.ok s.cfg.n ∧ s.fr.ok s.cfg

/-- Every record names the agent that raises its event (60_exceptions.md R213), and a STATUS bit that is set has a
record that set it (R211, R217). -/
abbrev State.eventsOk (s : State) : Prop :=
  (∀ r ∈ s.evh, r.agent = r.event.raiser) ∧
  (∀ i : Fin 5, s.status.getLsbD i = true → ∃ r ∈ s.evh, r.event.bit.getLsbD i = true)

/-- A push or a pop of one ring. -/
inductive RingAct where
  | push (b : Byte)
  | pop
deriving DecidableEq, Repr

/-- One ring with its history since reset (20_memory.md R69): the bytes pushed, and the bytes that left it in order,
each marked true if a pop returned it and false if an overflowing push overwrote it. -/
structure RingHistory where
  ring   : Ring
  pushed : List Byte
  left   : List (Byte × Bool)
deriving DecidableEq, Repr

/-- One push or pop with its history; none where the ring access faults. A pop of an empty ring returns no byte. -/
def RingHistory.act (n : Nat) (h : RingHistory) (a : RingAct) : Option RingHistory :=
  match a with
  | .push b =>
    match h.ring.push n b with
    | none => none
    | some (r, none) => some { h with ring := r, pushed := h.pushed ++ [b] }
    | some (r, some lost) => some { ring := r, pushed := h.pushed ++ [b], left := h.left ++ [(lost, false)] }
  | .pop =>
    if h.ring.isEmpty then some h
    else
      match h.ring.pop n with
      | none => none
      | some (v, r) => some { h with ring := r, left := h.left ++ [(v, true)] }

/-- A sequence of pushes and pops. -/
def RingHistory.acts (n : Nat) (h : RingHistory) : List RingAct → Option RingHistory
  | [] => some h
  | a :: rest =>
    match h.act n a with
    | none => none
    | some h' => RingHistory.acts n h' rest

/-- The ring right after reset, with no history (10_state.md R53). -/
def RingHistory.start : RingHistory :=
  { ring := { mem := [], wr := 0, rd := 0, full := false }, pushed := [], left := [] }

/-- The state whose `RX` has given up its oldest unread byte and nothing else has changed (40_ring_buffer.md R104): what
an `FR_STEP` that takes a byte hands to its arm (42_framer.md R141). -/
def State.tookRx (s : State) : State :=
  { s with rx := { s.rx with rd := (s.rx.rd + 1) % s.cfg.n, full := false } }

/-- The same of `TX`, the byte handed to the line (41_transport.md R122, 43_tx_frame_pump.md R170). -/
def State.sentTx (s : State) : State :=
  { s with
    tx := { s.tx with rd := (s.tx.rd + 1) % s.cfg.n, full := false }
    txd := s.txd ++ [s.tx.mem.read s.tx.rd] }

/-- The number a run of lowercase hexadecimal digits stands for, most significant digit first (20_memory.md R63). -/
def hexValue (ds : List Byte) : Nat :=
  ds.foldl (fun n d => 16 * n + (if d.toNat ≤ 0x39 then d.toNat - 0x30 else d.toNat - 0x61 + 10)) 0

/-- A lowercase hexadecimal digit (30_encoding.md R90). -/
abbrev isHexDigit (d : Byte) : Prop :=
  (0x30 ≤ d.toNat ∧ d.toNat ≤ 0x39) ∨ (0x61 ≤ d.toNat ∧ d.toNat ≤ 0x66)

/-- The framer takes these bytes one after the other (one `FR_STEP` each, 42_framer.md R141). -/
def takeBytes (bs : List Byte) (s : State) : State := bs.foldl (fun s b => takeByte b s) s

/-- The state after the first `k` turns of a schedule, if no step of them stops. -/
def runSchedule (sched : Nat → Turn) (s : State) : Nat → Option State
  | 0 => some s
  | k + 1 =>
    match runSchedule sched s k with
    | none => none
    | some s' =>
      match step { s' with turns := [sched k] } with
      | .next s'' => some s''
      | .fault _ => none
      | .refused _ => none

/-- Weak fairness of a schedule for an interrupt agent (70_reset_and_hazards.md R254): an agent that keeps having a step
eventually takes one. A premise for liveness claims; no step enforces it (log 17). -/
def WeaklyFair (sched : Nat → Turn) (s : State) (a : Agent) : Prop :=
  ∀ k, (∀ j, k ≤ j → ∃ s', runSchedule sched s j = some s' ∧ enabled a s' = true) →
    ∃ j s', k ≤ j ∧ runSchedule sched s j = some s' ∧ takesStep a (sched j) s' = true

/-- The assumption of 70_reset_and_hazards.md R254: weak fairness for RXI and TXI. MAIN's steps are whatever its program
issues. -/
def FairSchedule (sched : Nat → Turn) (s : State) : Prop :=
  WeaklyFair sched s .rxi ∧ WeaklyFair sched s .txi

end Sys2Proof.Machine
end

