-- ==== Sys2Proof/Certificates/Slice0/Obligations.lean ====
section
/-! DEFINITION. The statements for the provers: what the rules of spec/ say the operations and the machine do. Each
docstring names the rule or, where a clause is the model's own choice, the log entry. -/

open Sys2Proof Sys2Proof.Machine

/-! ### Encoding -/

/-- Words written out from 30_encoding.md R80 to R82, R86, R87: what each decodes to, and reserved ones. -/
def Obligations.WrittenWordsDecode : Prop :=
  decodeTableWord 16 0x0000 = some .nop ∧
  decodeTableWord 16 0x1024 = some (.pushRx 0x24#8) ∧
  decodeTableWord 16 0x1123 = some (.pushTx 0x23#8) ∧
  decodeTableWord 16 0x2100 = some .popTx ∧
  decodeTableWord 16 0x4000 = some .frStep ∧
  decodeTableWord 16 0x60FF = some (.frBody 0xFF#8) ∧
  decodeTableWord 16 0x7000 = some .txReady ∧
  decodeTableWord 16 0x9003 = some (.ieWrite 3#2) ∧
  decodeTableWord 16 0xA010 = some (.clrStatus 0x10#5) ∧
  decodeTableWord 16 0xB00F = some (.rdReg 15#4) ∧
  decodeTableWord 8 0x23 = some .endA ∧
  decodeTableWord 24 0x454E44 = some .mnemEnd ∧
  decodeTableWord 16 0x2001 = none ∧
  decodeTableWord 16 0x1200 = none ∧
  decodeTableWord 16 0x9004 = none ∧
  decodeTableWord 16 0xA020 = none ∧
  decodeTableWord 16 0xC000 = none

/-- Decoding the encoding of any instruction gives it back, with every operand at every value. -/
def Obligations.DecodeEncodeRoundTrip : Prop :=
  ∀ i : Instr, decode (encode i) = .ok i

/-- Bits that decode to an instruction are its encoding: no two rows share bits (30_encoding.md R85). -/
def Obligations.EncodingIsTheOnlySpelling : Prop :=
  ∀ (e : Encoding) (i : Instr), decode e = .ok i → encode i = e

/-- 30_encoding.md R82 and the reserved `OP` of R84: exactly which operation words are reserved. `OP`, `X` and `D` are
the word's digits in base 16. -/
def Obligations.ReservedWordsAreThoseWithNonzeroReservedFields : Prop :=
  ∀ w : OpWord,
    let op := w.toNat / 4096
    let x := w.toNat / 256 % 16
    let d := w.toNat % 256
    (decodeOp w).toOption = none ↔
      12 ≤ op ∨
      ((op = 1 ∨ op = 2 ∨ op = 3) ∧ 2 ≤ x) ∨
      (¬(op = 1 ∨ op = 2 ∨ op = 3) ∧ x ≠ 0) ∨
      ((op = 0 ∨ op = 2 ∨ op = 3 ∨ op = 4 ∨ op = 5 ∨ op = 7 ∨ op = 8) ∧ d ≠ 0) ∨
      (op = 9 ∧ 4 ≤ d) ∨ (op = 10 ∧ 32 ≤ d) ∨ (op = 11 ∧ 16 ≤ d)

/-- 42_framer.md R146 with the table of 30_encoding.md R87: the command type and width of each pattern. -/
def Obligations.LookupFollowsMnemonicTable : Prop :=
  ∀ p : Pattern,
    (lookupCmd p, (lookupCmd p).width.toInt) =
      if p = 0x474F4F#24 then (.goo, 4)
      else if p = 0x454E44#24 then (.cEnd, 0)
      else if p = 0x535044#24 then (.spd, 4)
      else if p = 0x414C54#24 then (.alt, 4)
      else if p = 0x4D414E#24 then (.man, 2)
      else if p = 0x4C4544#24 then (.led, 2)
      else (.undef, -1)

/-! ### Turns, agents and refusal -/

/-- When an agent with a step issues a word that decodes to an instruction, the step is that instruction's meaning,
with the turn used up and the agent recorded (10_state.md R50, R51). RXI's own word, whose byte is taken from `RXLINE`, is
in `InterruptEventsRunTheirOperations`. -/
def Obligations.StepRunsTheIssuedInstruction : Prop :=
  ∀ (s : State) (a : Agent) (w : OpWord) (i : Instr) (rest : List Turn),
    s.turns = .issue a w :: rest → enabled a s = true → decodeOp w = .ok i → (∀ b, i ≠ .pushRx b) ∨ a ≠ .rxi →
    step s = exec i { s with turns := rest, agent := a }

/-- The interrupt events, when enabled (10_state.md R51): the receive event takes the head of `RXLINE` and pushes it, in
one step (41_transport.md R120), also where the turn spells it as RXI issuing the word `PUSH_RX` of that byte; the
transmit-ready event is `TX_READY` issued by TXI (R122). That RXI issuing `PUSH_RX` of any other byte is refused as
`WRONG_AGENT`, with `RXLINE` kept, is the model's inference from 10_state.md R50 (log 13). -/
def Obligations.InterruptEventsRunTheirOperations : Prop :=
  ∀ (s : State) (b : Byte) (line : List Byte) (rest : List Turn), s.refused = none →
    (s.turns = .receive :: rest ∨ s.turns = .issue .rxi (BitVec.ofNat 16 (0x1000 + b.toNat)) :: rest →
      s.rxie = true → s.rxline = b :: line →
      step s = exec (.pushRx b) { s with turns := rest, agent := .rxi, rxline := line }) ∧
    (∀ c : Byte, s.turns = .issue .rxi (BitVec.ofNat 16 (0x1000 + c.toNat)) :: rest →
      s.rxie = true → s.rxline = b :: line → c ≠ b →
      step s = .next { s with turns := rest, agent := .rxi, refused := some .wrongAgent, result := none }) ∧
    (s.turns = .transmitReady :: rest → s.txie = true → s.txAct = true →
      step s = exec .txReady { s with turns := rest, agent := .txi })

/-- 10_state.md R51: a turn of an interrupt agent that has no step changes nothing, its event's turn and a turn in which it
issues any word alike (the turn itself, the model's own input, is used up: log 13). -/
def Obligations.DisabledInterruptAgentIsHeld : Prop :=
  ∀ (s : State) (w : OpWord) (rest : List Turn), s.refused = none →
    (s.turns = .receive :: rest ∨ s.turns = .issue .rxi w :: rest → s.rxie = false ∨ s.rxline = [] →
      step s = .next { s with turns := rest }) ∧
    (s.turns = .transmitReady :: rest ∨ s.turns = .issue .txi w :: rest → s.txie = false ∨ s.txAct = false →
      step s = .next { s with turns := rest })

/-- 60_exceptions.md R219 (a): a reserved word, from any agent that has a step, is refused and nothing else changes. -/
def Obligations.ReservedWordIsRefused : Prop :=
  ∀ (s : State) (a : Agent) (w : OpWord) (rest : List Turn),
    s.turns = .issue a w :: rest → enabled a s = true → (decodeOp w).toOption = none →
    step s = .next { s with turns := rest, agent := a, refused := some .reservedEncoding, result := none }

/-- 60_exceptions.md R219 (b) with the permission table of 10_state.md R50: an instruction issued by another agent than
its own is refused and nothing else changes. For the wire bytes and the mnemonics, which no agent issues, that only
MAIN executes them is the model's reading of 10_state.md R34 (log 11, log 12). That `RD_REG 15` from RXI or TXI, which is
also R219 (c), is kept as `WRONG_AGENT` is the model's choice (log 19). -/
def Obligations.WrongAgentIsRefused : Prop :=
  ∀ (i : Instr) (s : State),
    s.agent ≠ (match i with
      | .pushRx _ => .rxi
      | .txReady => .txi
      | _ => .main) →
    exec i s = .next { s with refused := some .wrongAgent, result := none }

/-- 10_state.md R51, last clause: once `REFUSED` is set no agent has a step. That the machine answers this by a refusal
of its own is the model's choice (log 7). -/
def Obligations.RefusedRunTakesNoStep : Prop :=
  ∀ (s : State) (why : RefuseReason) (t : Turn) (rest : List Turn),
    s.refused = some why → s.turns = t :: rest → t ≠ .reset → step s = .refused (.runRefused why)

/-- 10_state.md R49 and R54: no step, reset included, clears `REFUSED` or changes a build parameter. -/
def Obligations.StepNeverClearsRefusedNorChangesConfig : Prop :=
  ∀ s t : State, step s = .next t → t.cfg = s.cfg ∧ (s.refused ≠ none → t.refused = s.refused)

/-- The placing of an operation word makes the very next step run it (the model's own interface, log 3). -/
def Obligations.PlacedWordRunsNext : Prop :=
  ∀ (s : State) (w : OpWord) (i : Instr), decodeOp w = .ok i →
    step (s.withFetchWord 16 w.toNat) = exec i
      (match i with
      | .pushRx _ => { s with refused := none, agent := .rxi, rxie := true }
      | .txReady => { s with refused := none, agent := .txi, txie := true, txAct := true }
      | _ => { s with refused := none, agent := .main })

/-! ### Reset -/

/-- 70_reset_and_hazards.md R241: what reset leaves, for every build and every line input. -/
def Obligations.ResetLeavesEmptyIdleBlock : Prop :=
  ∀ (c : Config) (line : List Byte),
    let s := State.resetFor c line
    s.rx.count c.n = 0 ∧ s.tx.count c.n = 0 ∧ s.fr.fst = .ah ∧ s.fr.bodyLen = 0x00#8 ∧ s.fr.cmd = .none ∧
    s.fr.width.toInt = -1 ∧ s.statusReg = 0x00#8 ∧ s.ctrlReg = 0x00#8

/-- 70_reset_and_hazards.md R240 and 10_state.md R53: the block's reset sets every piece of state, keeps the
configuration, `RXLINE` and `REFUSED`, and starts the histories anew. R242 leaves the bytes in storage unspecified: that
they are the bytes stored before is the model's choice (log 8). That the draw counter is kept, the agent is MAIN and the
result is none are the model's choices too (log 6, log 4, log 5), as is the turn itself (log 15). -/
def Obligations.ResetTurnResetsTheBlock : Prop :=
  ∀ (s : State) (rest : List Turn), s.turns = .reset :: rest →
    step s = .next { State.resetFor s.cfg s.rxline with
      rx := { mem := s.rx.mem, wr := 0, rd := 0, full := false }
      tx := { mem := s.tx.mem, wr := 0, rd := 0, full := false }
      fr := { fst := .ah, body := s.fr.body, bodyLen := 0x00#8, cmd := .none, width := 0xFF#8 }
      refused := s.refused, turns := rest, draws := s.draws }

/-- The invariants hold right after reset, for every build that obeys 00_scope.md R7. -/
def Obligations.ResetMeetsTheInvariants : Prop :=
  ∀ (c : Config) (line : List Byte), c.wf → (State.resetFor c line).inv ∧ (State.resetFor c line).eventsOk

/-! ### Invariants that every step keeps -/

/-- The ring invariants (10_state.md R25), the framer invariants (R30, R32, R33) and the canonical form of the storage
are kept by every step, from every state that has them. -/
def Obligations.StepKeepsRingAndFramerInvariants : Prop :=
  ∀ s t : State, s.inv → step s = .next t → t.inv

/-- From a state with the invariants no step faults (the model's one fault, log 9, is never met). -/
def Obligations.InvariantStatesNeverFault : Prop :=
  ∀ (s : State) (r : Fault), s.inv → step s ≠ .fault r

/-- Every event record names the agent that raises its event (60_exceptions.md R213), and every set STATUS bit has its
record (R211, R217): kept by every step. -/
def Obligations.StepKeepsEventsAttributedAndRecorded : Prop :=
  ∀ s t : State, s.eventsOk → step s = .next t → t.eventsOk

/-! ### Control operations -/

/-- 44_control.md R190: the word 0x0000, for MAIN only, returns 0x00 and changes nothing. -/
def Obligations.NopLeavesStateUnchanged : Prop :=
  decodeOp 0x0000#16 = .ok .nop ∧
  ∀ s : State, exec .nop s = .next
    (if s.agent = .main then { s with result := some 0x00#8 }
    else { s with refused := some .wrongAgent, result := none })

/-- 44_control.md R191: the word `0x9000 | v` sets both enables and leaves `TX_ACT` and all else. -/
def Obligations.IeWriteSetsBothEnables : Prop :=
  ∀ v : BitVec 2, decodeOp (BitVec.ofNat 16 (0x9000 + v.toNat)) = .ok (.ieWrite v) ∧
    ∀ s : State, s.agent = .main →
      exec (.ieWrite v) s = .next { s with rxie := v.getLsbD 0, txie := v.getLsbD 1, result := some 0x00#8 }

/-- 44_control.md R192: the word `0xA000 | m`, for MAIN only, clears the STATUS bits that `m` selects and nothing else. -/
def Obligations.ClrStatusClearsTheSelectedBits : Prop :=
  ∀ m : BitVec 5, decodeOp (BitVec.ofNat 16 (0xA000 + m.toNat)) = .ok (.clrStatus m) ∧
    ∀ s : State,
      (s.agent = .main → ∃ st : BitVec 5, (∀ i, i < 5 → st.getLsbD i = (s.status.getLsbD i && !m.getLsbD i)) ∧
        exec (.clrStatus m) s = .next { s with status := st, result := some 0x00#8 }) ∧
      (s.agent ≠ .main → exec (.clrStatus m) s = .next { s with refused := some .wrongAgent, result := none })

/-- 44_control.md R193 with the register contents of 10_state.md R36 to R44: each of the registers 0 to 14 reads the
value its rule gives, and nothing else changes. -/
def Obligations.RdRegReadsEachLogicalRegister : Prop :=
  ∀ (s : State) (r : BitVec 4), s.agent = .main → s.inv → r ≠ 15#4 →
    ∃ v : Byte, exec (.rdReg r) s = .next { s with result := some v } ∧
      (v.toNat : Int) =
        match r.toNat with
        | 0 => s.status.toNat
        | 1 => s.rxie.toNat + 2 * s.txie.toNat + 4 * s.txAct.toNat
        | 2 => match s.fr.fst with | .ah => 0 | .ab => 1 | .ad => 2
        | 3 => s.fr.bodyLen.toNat
        | 4 => match s.fr.cmd with
            | .none => 0 | .goo => 1 | .cEnd => 2 | .spd => 3 | .alt => 4 | .man => 5 | .led => 6 | .undef => 7
        | 5 => s.fr.width.toNat
        | 6 => if s.rx.full then s.cfg.n else ((s.rx.wr : Int) - s.rx.rd) % s.cfg.n
        | 7 => if s.tx.full then s.cfg.n else ((s.tx.wr : Int) - s.tx.rd) % s.cfg.n
        | 8 => s.rx.wr
        | 9 => s.rx.rd
        | 10 => s.tx.wr
        | 11 => s.tx.rd
        | 12 => s.rx.full.toNat + 2 * s.tx.full.toNat
        | 13 => match s.cfg.grammar with | .A => 0 | .B => 1
        | _ => s.cfg.n

/-- 10_state.md R45: `RD_REG 15` is refused, whichever agent issues it; from MAIN, which the permission table lists for it
(10_state.md R50), as `RESERVED_REGISTER`. Which reason is kept from RXI and TXI the spec leaves open (log 19), and no
clause here names it. -/
def Obligations.RdRegFifteenIsRefused : Prop :=
  ∀ s : State, ∃ why : RefuseReason,
    exec (.rdReg 15#4) s = .next { s with refused := some why, result := none } ∧
    (s.agent = .main → why = .reservedRegister)

/-- 44_control.md R194: the byte `CRIT_ENTER` reads is enough for `CRIT_EXIT` to restore both enables, in whatever
state it runs; inside, both are 0. -/
def Obligations.CriticalSectionRestoresTheEnables : Prop :=
  ∀ (s t : State) (v : Byte), s.agent = .main → exec (.rdReg 1#4) s = .next t → t.result = some v →
    critEnter = [.rdReg 1#4, .ieWrite 0#2] ∧
    (∀ u : State, u.agent = .main →
      exec (.ieWrite 0#2) u = .next { u with rxie := false, txie := false, result := some 0x00#8 }) ∧
    ∃ x : BitVec 2, critExit v = [.ieWrite x] ∧ ∀ u : State, u.agent = .main →
      exec (.ieWrite x) u = .next { u with rxie := s.rxie, txie := s.txie, result := some 0x00#8 }

/-! ### Ring operations -/

/-- 40_ring_buffer.md R102 with R101 and R110: `PUSH_RX`, both for a ring with room and for a full one. One slot is
stored to, the one at the write index. -/
def Obligations.PushRxAppendsAndReportsOverflow : Prop :=
  ∀ (s : State) (b : Byte), s.agent = .rxi → s.rx.ok s.cfg.n →
    ∃ q : Ring,
      q.wr = (s.rx.wr + 1) % s.cfg.n ∧
      q.rd = (if s.rx.full then (s.rx.rd + 1) % s.cfg.n else s.rx.rd) ∧
      q.full = (s.rx.full || (s.rx.wr + 1) % s.cfg.n == s.rx.rd) ∧
      (∀ i, q.mem.read i = if i = s.rx.wr then b else s.rx.mem.read i) ∧
      q.unread s.cfg.n = (if s.rx.full then (s.rx.unread s.cfg.n).tail else s.rx.unread s.cfg.n) ++ [b] ∧
      exec (.pushRx b) s = .next
        (if s.rx.full then
          { s with
            rx := q, result := some 0x00#8, status := s.status ||| 0b00001#5
            evh := s.evh ++ [⟨.overflow .rx (s.rx.mem.read s.rx.rd) b, .rxi⟩] }
        else { s with rx := q, result := some 0x00#8 })

/-- 40_ring_buffer.md R103 with R101 and R110: `PUSH_TX`. It does not start transmission. -/
def Obligations.PushTxAppendsAndReportsOverflow : Prop :=
  ∀ (s : State) (b : Byte), s.agent = .main → s.tx.ok s.cfg.n →
    ∃ q : Ring,
      q.wr = (s.tx.wr + 1) % s.cfg.n ∧
      q.rd = (if s.tx.full then (s.tx.rd + 1) % s.cfg.n else s.tx.rd) ∧
      q.full = (s.tx.full || (s.tx.wr + 1) % s.cfg.n == s.tx.rd) ∧
      (∀ i, q.mem.read i = if i = s.tx.wr then b else s.tx.mem.read i) ∧
      q.unread s.cfg.n = (if s.tx.full then (s.tx.unread s.cfg.n).tail else s.tx.unread s.cfg.n) ++ [b] ∧
      exec (.pushTx b) s = .next
        (if s.tx.full then
          { s with
            tx := q, result := some 0x00#8, status := s.status ||| 0b00100#5
            evh := s.evh ++ [⟨.overflow .tx (s.tx.mem.read s.tx.rd) b, .main⟩] }
        else { s with tx := q, result := some 0x00#8 })

/-- 40_ring_buffer.md R105 and R106 with R104: a pop of a ring that is not empty returns the oldest unread byte, leaves
the others in order, stores to no slot, and emits nothing. -/
def Obligations.PopReturnsTheOldestByte : Prop :=
  ∀ s : State, s.agent = .main →
    (s.rx.ok s.cfg.n → ¬(s.rx.wr = s.rx.rd ∧ s.rx.full = false) →
      ∃ q : Ring, q = { s.rx with rd := (s.rx.rd + 1) % s.cfg.n, full := false } ∧
        ∃ v : Byte, s.rx.unread s.cfg.n = v :: q.unread s.cfg.n ∧
          exec .popRx s = .next { s with rx := q, result := some v }) ∧
    (s.tx.ok s.cfg.n → ¬(s.tx.wr = s.tx.rd ∧ s.tx.full = false) →
      ∃ q : Ring, q = { s.tx with rd := (s.tx.rd + 1) % s.cfg.n, full := false } ∧
        ∃ v : Byte, s.tx.unread s.cfg.n = v :: q.unread s.cfg.n ∧
          exec .popTx s = .next { s with tx := q, result := some v })

/-- 40_ring_buffer.md R111: a pop of an empty ring returns 0x00, records one underflow event, sets the ring's bit, and
changes no index, `FULL` bit or slot. -/
def Obligations.PopOfEmptyRingUnderflows : Prop :=
  ∀ s : State, s.agent = .main →
    (s.rx.wr = s.rx.rd → s.rx.full = false →
      exec .popRx s = .next { s with
        result := some 0x00#8, status := s.status ||| 0b00010#5, evh := s.evh ++ [⟨.underflow .rx, .main⟩] }) ∧
    (s.tx.wr = s.tx.rd → s.tx.full = false →
      exec .popTx s = .next { s with
        result := some 0x00#8, status := s.status ||| 0b01000#5, evh := s.evh ++ [⟨.underflow .tx, .main⟩] })

/-- 40_ring_buffer.md R108 and R109 with R107 and 20_memory.md R66: the answer is 1 for a ring that holds no unread byte,
whatever `STALE_EMPTY` is, and with exact emptiness tests 0 for any other; no state changes. For a ring that is not
empty with `STALE_EMPTY = true` see `StaleEmptinessOnlyDelays`. -/
def Obligations.EmptyQueriesAnswerExactly : Prop :=
  ∀ s : State, s.agent = .main →
    (s.rx.ok s.cfg.n → s.cfg.staleEmpty = false ∨ s.rx.unread s.cfg.n = [] →
      exec .emptyRx s = .next { s with result := some (if s.rx.unread s.cfg.n = [] then 0x01#8 else 0x00#8) }) ∧
    (s.tx.ok s.cfg.n → s.cfg.staleEmpty = false ∨ s.tx.unread s.cfg.n = [] →
      exec .emptyTx s = .next { s with result := some (if s.tx.unread s.cfg.n = [] then 0x01#8 else 0x00#8) })

/-- 20_memory.md R66 and 70_reset_and_hazards.md R252 with `STALE_EMPTY = true`, for every value of the free draw: an
operation that tests a ring that is not empty either acts as with exact tests, or acts as on an empty ring; one that
tests an empty ring acts as with exact tests, never the converse. A test of a ring that is not empty advances the draw
counter, the model's own, by one (log 6). -/
def Obligations.StaleEmptinessOnlyDelays : Prop :=
  ∀ s : State, s.cfg.staleEmpty = true →
    let exact : State := { s with cfg := { s.cfg with staleEmpty := false } }
    let late : State := { s with draws := s.draws + 1 }
    let same : Instr → State → Prop := fun i t =>
      ∃ u, exec i exact = .next u ∧ t = { u with cfg := s.cfg, draws := s.draws + 1 }
    let unchanged : Instr → Prop := fun i =>
      ∃ u, exec i exact = .next u ∧ exec i s = .next { u with cfg := s.cfg }
    (s.agent = .main → s.rx.ok s.cfg.n → s.rx.isEmpty = false →
      (∃ t, exec .emptyRx s = .next t ∧ (same .emptyRx t ∨ t = { late with result := some 0x01#8 })) ∧
      (s.fr.fst ≠ .ad → ∃ t, exec .frStep s = .next t ∧ (same .frStep t ∨ t = { late with result := some 0x00#8 }))) ∧
    (s.agent = .main → s.tx.ok s.cfg.n → s.tx.isEmpty = false →
      (∃ t, exec .emptyTx s = .next t ∧ (same .emptyTx t ∨ t = { late with result := some 0x01#8 })) ∧
      (s.txAct = false → ∃ t, exec .pump s = .next t ∧ (same .pump t ∨ t = { late with result := some 0x00#8 }))) ∧
    (s.agent = .txi → s.tx.ok s.cfg.n → s.tx.isEmpty = false →
      ∃ t, exec .txReady s = .next t ∧
        (same .txReady t ∨ t = { late with txAct := false, result := some 0x00#8 })) ∧
    (s.agent = .main → s.rx.isEmpty = true → unchanged .emptyRx ∧ unchanged .frStep) ∧
    (s.agent = .main → s.tx.isEmpty = true → unchanged .emptyTx ∧ unchanged .pump) ∧
    (s.agent = .txi → s.tx.isEmpty = true → unchanged .txReady)

/-- 20_memory.md R69: after any pushes and pops of a ring since reset, the bytes that left it in order, followed by the
unread bytes, are the bytes pushed; those that left are the ones pops returned and the ones overflowing pushes
overwrote, so the occupancy is the pushes less both, and never more than N. -/
def Obligations.RingHistoryIsFirstInFirstOut : Prop :=
  ∀ (n : Nat) (acts : List RingAct), 1 ≤ n →
    ∃ h : RingHistory, RingHistory.start.acts n acts = some h ∧
      h.left.map Prod.fst ++ h.ring.unread n = h.pushed ∧
      (h.ring.count n + (h.left.filter fun x => x.2).length + (h.left.filter fun x => !x.2).length
        = h.pushed.length) ∧
      h.ring.count n ≤ n

/-- 40_ring_buffer.md R110, second sentence: pushes alone keep the last N bytes pushed, oldest first. -/
def Obligations.OverflowingPushesKeepTheLastBytes : Prop :=
  ∀ (n : Nat) (bs : List Byte), 1 ≤ n →
    ∃ h : RingHistory, RingHistory.start.acts n (bs.map .push) = some h ∧
      h.ring.unread n = bs.drop (bs.length - n)

/-- 70_reset_and_hazards.md R245 (a): after `EMPTY_RX` answered 0, no interrupt steps in between can make MAIN's next
`POP_RX` underflow. -/
def Obligations.NonemptyAnswerProtectsThePop : Prop :=
  ∀ (s t u : State) (events : List Turn), s.agent = .main → s.inv →
    exec .emptyRx s = .next t → t.result = some 0x00#8 →
    (∀ e ∈ events, e = .receive ∨ e = .transmitReady) →
    Sys2Proof.core.run events.length { t with turns := events } = .next u →
    ∃ v, exec .popRx { u with agent := .main } = .next v ∧ v.evh = u.evh ∧ v.status = u.status

/-! ### Transmission -/

/-- 41_transport.md R122 with 20_memory.md R66: `TX_READY` idles the transmitter on an empty `TX`, whatever `STALE_EMPTY`
is; else, with exact emptiness tests, it sends the oldest byte. -/
def Obligations.TxReadySendsOrIdles : Prop :=
  ∀ s : State, s.agent = .txi →
    (s.tx.wr = s.tx.rd ∧ s.tx.full = false → exec .txReady s = .next { s with txAct := false, result := some 0x00#8 }) ∧
    (s.cfg.staleEmpty = false → s.tx.ok s.cfg.n → ¬(s.tx.wr = s.tx.rd ∧ s.tx.full = false) →
      exec .txReady s = .next { s.sentTx with result := some 0x00#8 } ∧
      s.tx.unread s.cfg.n = s.tx.mem.read s.tx.rd :: s.sentTx.tx.unread s.cfg.n)

/-- 43_tx_frame_pump.md R170 with 20_memory.md R66: `PUMP` does nothing if the transmitter is active or `TX` is empty,
whatever `STALE_EMPTY` is; else, with exact emptiness tests, it sends one byte and starts the transmitter. -/
def Obligations.PumpStartsOnlyAnIdleTransmitter : Prop :=
  ∀ s : State, s.agent = .main →
    (s.txAct = true ∨ (s.tx.wr = s.tx.rd ∧ s.tx.full = false) → exec .pump s = .next { s with result := some 0x00#8 }) ∧
    (s.cfg.staleEmpty = false → s.tx.ok s.cfg.n → s.txAct = false → ¬(s.tx.wr = s.tx.rd ∧ s.tx.full = false) →
      exec .pump s = .next { s.sentTx with txAct := true, result := some 0x01#8 } ∧
      s.tx.unread s.cfg.n = s.tx.mem.read s.tx.rd :: s.sentTx.tx.unread s.cfg.n)

/-- 41_transport.md R124: how `TX_ACT` moves. It is set only by a `PUMP` that hands a byte to the line, cleared only by
a `TX_READY` that sends nothing and by reset. -/
def Obligations.TransmitterMovesOnlyByPumpAndTxReady : Prop :=
  ∀ s t : State, step s = .next t →
    (s.txAct = false → t.txAct = true →
      ∃ (rest : List Turn) (b : Byte), s.turns = .issue .main 0x8000#16 :: rest ∧ t.txd = s.txd ++ [b]) ∧
    (s.txAct = true → t.txAct = false →
      ∃ rest : List Turn, s.turns = .reset :: rest ∨
        ((s.turns = .transmitReady :: rest ∨ s.turns = .issue .txi 0x7000#16 :: rest) ∧
          s.txie = true ∧ t.txd = s.txd ∧ t.tx = s.tx))

/-- 41_transport.md R123, one step of it: a step other than reset leaves `TXD` as it is, or appends the byte it pops from
`TX`, and then it is `PUMP` or `TX_READY`. -/
def Obligations.LineGetsExactlyThePoppedBytes : Prop :=
  ∀ s t : State, step s = .next t → (∀ rest, s.turns ≠ .reset :: rest) →
    t.txd = s.txd ∨
    ∃ rest : List Turn,
      (s.turns = .issue .main 0x8000#16 :: rest ∨ s.turns = .transmitReady :: rest ∨
        s.turns = .issue .txi 0x7000#16 :: rest) ∧
      s.tx.isEmpty = false ∧ t.txd = s.txd ++ [s.tx.mem.read s.tx.rd] ∧
      t.tx = { s.tx with rd := (s.tx.rd + 1) % s.cfg.n, full := false }

/-! ### The framer -/

/-- 42_framer.md R141 and R149: in `AD`, or with `RX` empty, `FR_STEP` takes no byte, changes nothing and returns
0x00. -/
def Obligations.FrStepTakesNothingInDispatchOrOnEmptyRing : Prop :=
  ∀ s : State, s.agent = .main → s.fr.fst = .ad ∨ (s.rx.wr = s.rx.rd ∧ s.rx.full = false) →
    exec .frStep s = .next { s with result := some 0x00#8 }

/-- 42_framer.md R142, exact emptiness tests: in `AH` a header opens a frame and any other byte is discarded with no
other change. -/
def Obligations.FrStepInAwaitingHeaderOpensOrIgnores : Prop :=
  ∀ s : State, s.agent = .main → s.cfg.staleEmpty = false → s.rx.ok s.cfg.n →
    ¬(s.rx.wr = s.rx.rd ∧ s.rx.full = false) → s.fr.fst = .ah →
    exec .frStep s = .next
      (if s.rx.mem.read s.rx.rd = (match s.cfg.grammar with | .A => 0x24#8 | .B => 0x00#8) then
        { s.tookRx with
          fr := { s.fr with fst := .ab, bodyLen := 0x00#8, cmd := .none, width := 0xFF#8 }, result := some 0x01#8 }
      else { s.tookRx with result := some 0x01#8 })

/-- 42_framer.md R143 with the frame checks R147 and R148, exact emptiness tests: an end marker in `AB` closes the frame
if its length is right, else raises `FRAMING_LENGTH` and returns to `AH`. -/
def Obligations.FrStepOnEndMarkerClosesOrRejects : Prop :=
  ∀ s : State, s.agent = .main → s.cfg.staleEmpty = false → s.rx.ok s.cfg.n →
    ¬(s.rx.wr = s.rx.rd ∧ s.rx.full = false) → s.fr.fst = .ab →
    s.rx.mem.read s.rx.rd = (match s.cfg.grammar with | .A => 0x23#8 | .B => 0xFF#8) →
    ∃ good : Bool,
      (good = true ↔ match s.cfg.grammar with
        | .A => 3 ≤ s.fr.bodyLen.toNat ∧ 0 ≤ s.fr.width.toInt ∧ (s.fr.bodyLen.toNat : Int) = 3 + s.fr.width.toInt
        | .B => s.fr.bodyLen.toNat ≤ s.cfg.bodyMax) ∧
      exec .frStep s = .next
        (if good then { s.tookRx with fr := { s.fr with fst := .ad }, result := some 0x05#8 }
        else { s.tookRx with
          fr := { s.fr with fst := .ah, bodyLen := 0x00#8, cmd := .none, width := 0xFF#8 }
          status := s.status ||| 0b10000#5
          evh := s.evh ++ [⟨.framingLength s.fr.bodyLen s.fr.cmd, .main⟩], result := some 0x03#8 })

/-- 42_framer.md R144, exact emptiness tests: a header in `AB` raises `FRAMING_RESTART`, drops the body and stays in
`AB`. -/
def Obligations.FrStepOnHeaderInBodyRestarts : Prop :=
  ∀ s : State, s.agent = .main → s.cfg.staleEmpty = false → s.rx.ok s.cfg.n →
    ¬(s.rx.wr = s.rx.rd ∧ s.rx.full = false) → s.fr.fst = .ab →
    s.rx.mem.read s.rx.rd = (match s.cfg.grammar with | .A => 0x24#8 | .B => 0x00#8) →
    exec .frStep s = .next { s.tookRx with
      fr := { s.fr with fst := .ab, bodyLen := 0x00#8, cmd := .none, width := 0xFF#8 }
      status := s.status ||| 0b10000#5
      evh := s.evh ++ [⟨.framingRestart s.fr.bodyLen, .main⟩], result := some 0x03#8 }

/-- 42_framer.md R145 with R146, exact emptiness tests: any other byte in `AB` is stored at the body's end if it fits
(the only body slot written), the length counts it and saturates, and in Grammar A the third byte sets command type and
width. -/
def Obligations.FrStepOnDataByteAppends : Prop :=
  ∀ s : State, s.agent = .main → s.cfg.staleEmpty = false → s.inv →
    ¬(s.rx.wr = s.rx.rd ∧ s.rx.full = false) → s.fr.fst = .ab →
    s.rx.mem.read s.rx.rd ≠ (match s.cfg.grammar with | .A => 0x24#8 | .B => 0x00#8) →
    s.rx.mem.read s.rx.rd ≠ (match s.cfg.grammar with | .A => 0x23#8 | .B => 0xFF#8) →
    ∃ f : Framer,
      f.fst = .ab ∧
      f.bodyLen.toNat = min (s.fr.bodyLen.toNat + 1) (s.cfg.bodyMax + 1) ∧
      (∀ i, f.body.read i =
        if i = s.fr.bodyLen.toNat ∧ s.fr.bodyLen.toNat < s.cfg.bodyMax then s.rx.mem.read s.rx.rd
        else s.fr.body.read i) ∧
      (if s.cfg.grammar = .A ∧ f.bodyLen.toNat = 3 then
        f.cmd = lookupCmd (f.body.read 0 ++ f.body.read 1 ++ f.body.read 2) ∧ f.width = f.cmd.width
      else f.cmd = s.fr.cmd ∧ f.width = s.fr.width) ∧
      exec .frStep s = .next { s.tookRx with fr := f, result := some 0x01#8 }

/-- 42_framer.md R150: the word 0x5000, for MAIN only, leaves `AD` for `AH` with no body, and does nothing outside
`AD`. -/
def Obligations.FrAckReleasesOnlyAWaitingBody : Prop :=
  decodeOp 0x5000#16 = .ok .frAck ∧
  ∀ s : State, exec .frAck s = .next
    (if s.agent ≠ .main then { s with refused := some .wrongAgent, result := none }
    else if s.fr.fst = .ad then
      { s with
        fr := { s.fr with fst := .ah, bodyLen := 0x00#8, cmd := .none, width := 0xFF#8 }, result := some 0x01#8 }
    else { s with result := some 0x00#8 })

/-- 42_framer.md R151: the word `0x6000 | k`, for MAIN only, reads body byte `k`, or 0x00 at or past the body's end, in
every framer state, and changes nothing. In `AH`, where the framer invariants leave no body (10_state.md R33), it always
reads 0x00. -/
def Obligations.FrBodyReadsTheBodyOrZero : Prop :=
  ∀ k : Byte, decodeOp (BitVec.ofNat 16 (0x6000 + k.toNat)) = .ok (.frBody k) ∧
    (∀ s : State, exec (.frBody k) s = .next
      (if s.agent ≠ .main then { s with refused := some .wrongAgent, result := none }
      else { s with
        result := some (if k.toNat < min s.fr.bodyLen.toNat s.cfg.bodyMax then s.fr.body.read k.toNat else 0x00#8) })) ∧
    ∀ s : State, s.agent = .main → s.inv → s.fr.fst = .ah →
      exec (.frBody k) s = .next { s with result := some 0x00#8 }

/-- 42_framer.md R156 with 10_state.md R28 and R34: the framer changes only in a step of MAIN that issues `FR_STEP` or
`FR_ACK`, or by reset; from `AD` an `FR_STEP` changes neither it nor `RX` (R149). -/
def Obligations.FramerMovesOnlyByFrStepAndFrAck : Prop :=
  ∀ s t : State, step s = .next t →
    (t.fr ≠ s.fr → ∃ rest : List Turn, s.turns = .reset :: rest ∨
      s.turns = .issue .main 0x4000#16 :: rest ∨ s.turns = .issue .main 0x5000#16 :: rest) ∧
    (s.fr.fst = .ad → (∃ rest : List Turn, s.turns = .issue .main 0x4000#16 :: rest) → t.fr = s.fr ∧ t.rx = s.rx)

/-- 42_framer.md R153: bytes that are no header, before a packet, leave it parsed as if it came alone. -/
def Obligations.NoiseBeforeAPacketIsInvisible : Prop :=
  ∀ (s : State) (noise packet : List Byte), s.fr.fst = .ah → packet ≠ [] →
    (∀ b ∈ noise, b ≠ headerByte s.cfg.grammar) →
    takeBytes (noise ++ packet) s = takeBytes packet s

/-- 42_framer.md R154: a frame whose mnemonic is undefined is never completed by any bytes without a new header. -/
def Obligations.UndefinedMnemonicNeverCompletes : Prop :=
  ∀ (s : State) (bytes : List Byte), s.inv → s.fr.fst = .ab → s.fr.cmd = .undef →
    (∀ b ∈ bytes, b ≠ headerByte s.cfg.grammar) →
    (takeBytes bytes s).fr.fst ≠ .ad

/-- 42_framer.md R141 and R149 with 10_state.md R26, exact emptiness tests: one `FR_STEP` of MAIN for each of the bytes
that `RX` holds first is the framer taking those bytes in order (`takeBytes`), as long as no frame is closed before the
last of them: the steps leave the other bytes in `RX` and change nothing else. This is what carries the statements about
`takeBytes` to runs of the machine; the turn list is the model's own (log 2). -/
def Obligations.FrStepsTakeTheWaitingBytesInOrder : Prop :=
  ∀ (s : State) (bytes left : List Byte) (rest : List Turn),
    s.agent = .main → s.refused = none → s.cfg.staleEmpty = false → s.rx.ok s.cfg.n →
    s.rx.unread s.cfg.n = bytes ++ left →
    (∀ k, k < bytes.length → (takeBytes (bytes.take k) s).fr.fst ≠ .ad) →
    s.turns = List.replicate bytes.length (.issue .main 0x4000#16) ++ rest →
    ∃ q : Ring, q.unread s.cfg.n = left ∧ q.ok s.cfg.n ∧ q.mem = s.rx.mem ∧ q.wr = s.rx.wr ∧
      Sys2Proof.core.run bytes.length s = .next { takeBytes bytes s with rx := q, turns := rest }

/-! ### The wire rows -/

/-- What a marker byte means when the framer takes it (30_encoding.md R86, 42_framer.md R142 to R145): as `HEADER` of its
own grammar it opens or restarts a frame. In a build of the other grammar it is a data byte. That the row of the opcode
table means this is log 11. -/
def Obligations.HeaderBytesOpenOrRestartAFrame : Prop :=
  ∀ s : State, s.agent = .main →
    let opened : Framer := { s.fr with fst := .ab, bodyLen := 0x00#8, cmd := .none, width := 0xFF#8 }
    let asHeader : State := match s.fr.fst with
      | .ah => { s with fr := opened, result := some 0x01#8 }
      | .ab => { s with
          fr := opened, status := s.status ||| 0b10000#5
          evh := s.evh ++ [⟨.framingRestart s.fr.bodyLen, .main⟩], result := some 0x03#8 }
      | .ad => { s with result := some 0x00#8 }
    let asData : Byte → State := fun b => match s.fr.fst with
      | .ah => { s with result := some 0x01#8 }
      | .ab => { s with fr := s.fr.collect s.cfg b, result := some 0x01#8 }
      | .ad => { s with result := some 0x00#8 }
    exec .headerA s = .next (match s.cfg.grammar with | .A => asHeader | .B => asData 0x24#8) ∧
    exec .headerB s = .next (match s.cfg.grammar with | .A => asData 0x00#8 | .B => asHeader)

/-- As `END` of its own grammar a marker byte closes a frame or rejects it, and is noise outside one; in a build of the
other grammar it is a data byte (30_encoding.md R86, 42_framer.md R142, R143, R145; log 11). -/
def Obligations.EndBytesCloseOrRejectAFrame : Prop :=
  ∀ s : State, s.agent = .main →
    let asEnd : State := match s.fr.fst with
      | .ah => { s with result := some 0x01#8 }
      | .ab =>
        if frameOK s.cfg s.fr then { s with fr := { s.fr with fst := .ad }, result := some 0x05#8 }
        else { s with
          fr := { s.fr with fst := .ah, bodyLen := 0x00#8, cmd := .none, width := 0xFF#8 }
          status := s.status ||| 0b10000#5
          evh := s.evh ++ [⟨.framingLength s.fr.bodyLen s.fr.cmd, .main⟩], result := some 0x03#8 }
      | .ad => { s with result := some 0x00#8 }
    let asData : Byte → State := fun b => match s.fr.fst with
      | .ah => { s with result := some 0x01#8 }
      | .ab => { s with fr := s.fr.collect s.cfg b, result := some 0x01#8 }
      | .ad => { s with result := some 0x00#8 }
    exec .endA s = .next (match s.cfg.grammar with | .A => asEnd | .B => asData 0x23#8) ∧
    exec .endB s = .next (match s.cfg.grammar with | .A => asData 0xFF#8 | .B => asEnd)

/-- 42_framer.md R141, exact emptiness tests: outside `AD`, an `FR_STEP` takes the oldest unread byte of `RX`, whichever
it is, and does with it what the framer does with that byte (`takeByte`); where it is a marker byte, that is the byte's row
of the opcode table, run on the state without the byte (log 11). -/
def Obligations.FrStepRunsTheMarkerRow : Prop :=
  ∀ s : State, s.agent = .main → s.cfg.staleEmpty = false → s.rx.ok s.cfg.n →
    ¬(s.rx.wr = s.rx.rd ∧ s.rx.full = false) → s.fr.fst ≠ .ad →
    exec .frStep s = .next (takeByte (s.rx.mem.read s.rx.rd) s.tookRx) ∧
    ∀ i : Instr, decodeWire (s.rx.mem.read s.rx.rd) = .ok i → exec .frStep s = exec i s.tookRx

/-- The six mnemonic rows (30_encoding.md R87, 42_framer.md R146): on a body of exactly three bytes that spells the
mnemonic, in Grammar A, command type and width are the row's; on any other body nothing changes (log 12). -/
def Obligations.MnemonicRowsSetCommandAndWidth : Prop :=
  ∀ (s : State) (i : Instr) (p : Pattern) (c : Cmd) (w : Byte), s.agent = .main →
    (i, p, c, w) ∈ [(Instr.mnemGoo, 0x474F4F#24, Cmd.goo, 0x04#8), (.mnemEnd, 0x454E44#24, .cEnd, 0x00#8),
      (.mnemSpd, 0x535044#24, .spd, 0x04#8), (.mnemAlt, 0x414C54#24, .alt, 0x04#8),
      (.mnemMan, 0x4D414E#24, .man, 0x02#8), (.mnemLed, 0x4C4544#24, .led, 0x02#8)] →
    exec i s = .next
      (if s.cfg.grammar = .A ∧ s.fr.fst = .ab ∧ s.fr.bodyLen.toNat = 3 ∧
          s.fr.body.read 0 ++ s.fr.body.read 1 ++ s.fr.body.read 2 = p then
        { s with fr := { s.fr with cmd := c, width := w } }
      else s)

/-- An `FR_STEP` that takes the third byte of a known mnemonic is that mnemonic's row of the opcode table, run on the
state with the byte appended (42_framer.md R145, R146; log 12). -/
def Obligations.FrStepRunsTheMnemonicRow : Prop :=
  ∀ (s : State) (i : Instr), s.agent = .main → s.cfg.staleEmpty = false → s.inv →
    ¬(s.rx.wr = s.rx.rd ∧ s.rx.full = false) → s.cfg.grammar = .A → s.fr.fst = .ab → s.fr.bodyLen.toNat = 2 →
    let f : Framer := s.fr.append s.cfg (s.rx.mem.read s.rx.rd)
    decodeMnemonic (f.body.read 0 ++ f.body.read 1 ++ f.body.read 2) = .ok i →
    exec .frStep s = exec i { s.tookRx with fr := f, result := some 0x01#8 }

/-! ### Events and status, over all operations -/

/-- 60_exceptions.md R216 and R217 with R211: a step other than reset leaves `EVH` as it is, or appends exactly one
record, of the agent that stepped, and sets exactly its STATUS bit. -/
def Obligations.StepRaisesAtMostOneEvent : Prop :=
  ∀ s t : State, step s = .next t → (∀ rest, s.turns ≠ .reset :: rest) →
    t.evh = s.evh ∨
    ∃ e : Event, t.evh = s.evh ++ [⟨e, t.agent⟩] ∧ t.status = s.status ||| e.bit

/-- 60_exceptions.md R217: a STATUS bit is cleared only by a `CLR_STATUS` that selects it, or by reset. -/
def Obligations.StatusBitsAreSticky : Prop :=
  ∀ (s t : State) (i : Nat), step s = .next t → s.status.getLsbD i = true → t.status.getLsbD i = false →
    ∃ rest : List Turn, s.turns = .reset :: rest ∨
      ∃ (w : OpWord) (m : BitVec 5), s.turns = .issue .main w :: rest ∧ decodeOp w = .ok (.clrStatus m) ∧
        m.getLsbD i = true

/-- 44_control.md R191: the enables change only by `IE_WRITE` and reset. -/
def Obligations.EnablesChangeOnlyByIeWrite : Prop :=
  ∀ s t : State, step s = .next t → ¬(t.rxie = s.rxie ∧ t.txie = s.txie) →
    ∃ rest : List Turn, s.turns = .reset :: rest ∨
      ∃ (w : OpWord) (v : BitVec 2), s.turns = .issue .main w :: rest ∧ decodeOp w = .ok (.ieWrite v)

/-- 10_state.md R27 with 20_memory.md R60: which steps touch which ring. `RX` is pushed by RXI and popped by MAIN's
`POP_RX` and `FR_STEP`; `TX` is pushed by MAIN's `PUSH_TX` and popped by MAIN's `POP_TX` and `PUMP` and by TXI's
`TX_READY`. -/
def Obligations.RingsAreTouchedOnlyByTheirOperations : Prop :=
  ∀ s t : State, step s = .next t → (∀ rest, s.turns ≠ .reset :: rest) →
    (t.rx ≠ s.rx →
      (t.agent = .rxi ∧ t.rxline = s.rxline.tail) ∨
      ∃ rest : List Turn, s.turns = .issue .main 0x2000#16 :: rest ∨ s.turns = .issue .main 0x4000#16 :: rest) ∧
    (t.tx ≠ s.tx →
      t.agent = .txi ∨
      ∃ (rest : List Turn) (b : Byte), s.turns = .issue .main 0x2100#16 :: rest ∨
        s.turns = .issue .main 0x8000#16 :: rest ∨
        s.turns = .issue .main (BitVec.ofNat 16 (0x1100 + b.toNat)) :: rest)

/-! ### Response framing -/

/-- 43_tx_frame_pump.md R172 and R173: `FRAME_TX_A` expands to `W + 5` pushes: the header, the tag, `W` lowercase
hexadecimal digits of `v mod 16^W` most significant first, the end marker; a width other than 2 or 4 has no
expansion. That the markers are those of a grammar given as an argument is log 16. -/
def Obligations.ResponseFrameHoldsTheLowHexDigits : Prop :=
  ∀ (g : Grammar) (t0 t1 t2 : Byte) (v : Int) (w : Nat),
    if w = 2 ∨ w = 4 then
      ∃ ds : List Byte, ds.length = w ∧ (∀ d ∈ ds, isHexDigit d) ∧ (hexValue ds : Int) = v % (16 ^ w : Nat) ∧
        frameTxA g t0 t1 t2 v w =
          some (([headerByte g, t0, t1, t2] ++ ds ++ [endByte g]).map Instr.pushTx)
    else frameTxA g t0 t1 t2 v w = none

/-- 43_tx_frame_pump.md R175: the bytes of a response frame, fed to a Grammar A framer in `AH`, are accepted exactly if
the tag is a command mnemonic whose width is W. -/
def Obligations.ResponseFrameRoundTripsExactlyForItsMnemonics : Prop :=
  ∀ (s : State) (t0 t1 t2 : Byte) (v : Int) (w : Nat) (bytes : List Byte),
    s.inv → s.cfg.grammar = .A → s.fr.fst = .ah → frameBytes .A t0 t1 t2 v w = some bytes →
    ((takeBytes bytes s).fr.fst = .ad ↔
      (w = 4 ∧ (t0 ++ t1 ++ t2 = 0x474F4F#24 ∨ t0 ++ t1 ++ t2 = 0x535044#24 ∨ t0 ++ t1 ++ t2 = 0x414C54#24)) ∨
      (w = 2 ∧ (t0 ++ t1 ++ t2 = 0x4D414E#24 ∨ t0 ++ t1 ++ t2 = 0x4C4544#24)))
end

