-- ==== Sys2Proof/Laws/Encoding.lean ====
section
/-! SUPPORT. The fields of an operation word, and what passing a reserved-field check says (30_encoding.md R80, R82). -/

namespace Sys2Proof

/-- A word is its three fields (30_encoding.md R80). -/
theorem opWord_fields (w : OpWord) : opWord (fieldOp w) (fieldX w) (fieldD w) = w := by
  apply BitVec.eq_of_toNat_eq
  have := w.isLt
  simp only [opWord, fieldOp, fieldX, fieldD, BitVec.toNat_append, BitVec.extractLsb'_toNat, Nat.shiftRight_zero]
  rw [← Nat.shiftLeft_add_eq_or_of_lt (by omega), ← Nat.shiftLeft_add_eq_or_of_lt (by omega)]
  simp only [Nat.shiftLeft_eq, Nat.shiftRight_eq_div_pow]
  omega

theorem opWord_toNat (op x : BitVec 4) (d : Byte) : (opWord op x d).toNat = op.toNat * 4096 + x.toNat * 256 + d.toNat := by
  have := d.isLt
  have := x.isLt
  simp only [opWord, BitVec.toNat_append]
  rw [← Nat.shiftLeft_add_eq_or_of_lt (by omega), ← Nat.shiftLeft_add_eq_or_of_lt (by omega)]
  simp only [Nat.shiftLeft_eq]
  omega

theorem fieldOp_toNat (w : OpWord) : (fieldOp w).toNat = w.toNat / 4096 := by
  have := w.isLt
  simp only [fieldOp, BitVec.extractLsb'_toNat, Nat.shiftRight_eq_div_pow]
  omega

theorem fieldX_toNat (w : OpWord) : (fieldX w).toNat = w.toNat / 256 % 16 := by
  simp only [fieldX, BitVec.extractLsb'_toNat, Nat.shiftRight_eq_div_pow, Nat.reducePow]

theorem fieldD_toNat (w : OpWord) : (fieldD w).toNat = w.toNat % 256 := by
  simp only [fieldD, BitVec.extractLsb'_toNat, Nat.shiftRight_zero, Nat.reducePow]

@[simp] theorem fieldOp_opWord (op x : BitVec 4) (d : Byte) : fieldOp (opWord op x d) = op := by
  apply BitVec.eq_of_toNat_eq
  have := op.isLt
  have := x.isLt
  have := d.isLt
  rw [fieldOp_toNat, opWord_toNat]
  omega

@[simp] theorem fieldX_opWord (op x : BitVec 4) (d : Byte) : fieldX (opWord op x d) = x := by
  apply BitVec.eq_of_toNat_eq
  have := op.isLt
  have := x.isLt
  have := d.isLt
  rw [fieldX_toNat, opWord_toNat]
  omega

@[simp] theorem fieldD_opWord (op x : BitVec 4) (d : Byte) : fieldD (opWord op x d) = d := by
  apply BitVec.eq_of_toNat_eq
  have := d.isLt
  rw [fieldD_toNat, opWord_toNat]
  omega

/-- Passing the check of an operation without a ring select (30_encoding.md R82). -/
theorem zeroChecked_ok {w : OpWord} {lo : Nat} {i j : Instr} (h : zeroChecked w lo i = .ok j) :
    fieldX w = 0#4 ∧ fieldD w >>> lo = 0#8 ∧ j = i := by
  unfold zeroChecked at h
  split_ifs at h with h1 h2
  cases h
  exact ⟨not_not.mp h1, not_not.mp h2, rfl⟩

/-- Passing the check of an operation with a ring select (30_encoding.md R82). -/
theorem ringChecked_ok {w : OpWord} {lo : Nat} {i j k : Instr} (h : ringChecked w lo i j = .ok k) :
    fieldD w >>> lo = 0#8 ∧ ((fieldX w = 0#4 ∧ k = i) ∨ (fieldX w = 1#4 ∧ k = j)) := by
  unfold ringChecked at h
  have key : ∀ x : BitVec 4, x >>> 1 = 0#4 → x = 0#4 ∨ x = 1#4 := by decide
  split_ifs at h with h1 h2 h3
  · cases h
    exact ⟨not_not.mp h2, .inl ⟨h3, rfl⟩⟩
  · cases h
    exact ⟨not_not.mp h2, .inr ⟨(key _ (not_not.mp h1)).resolve_left h3, rfl⟩⟩

/-- RXI's word is the one with `OP` 1 and `I` 0 (30_encoding.md R81). -/
theorem decodeOp_pushRx_fields {w : OpWord} {b : Byte} (h : decodeOp w = .ok (.pushRx b)) :
    fieldOp w = 0x1#4 ∧ fieldX w = 0#4 := by
  unfold decodeOp at h
  split at h
  case h_2 e =>
    obtain ⟨-, ⟨hx, -⟩ | ⟨-, hj⟩⟩ := ringChecked_ok h
    · exact ⟨BitVec.eq_of_toNat_eq e, hx⟩
    · cases hj
  case h_3 | h_4 => obtain ⟨-, ⟨-, hj⟩ | ⟨-, hj⟩⟩ := ringChecked_ok h <;> cases hj
  case h_13 => cases h
  all_goals cases (zeroChecked_ok h).2.2

/-- TXI's word is 0x7000 (30_encoding.md R81). -/
theorem decodeOp_txReady_word {w : OpWord} (h : decodeOp w = .ok .txReady) : w = opWord 0x7#4 0#4 0#8 := by
  unfold decodeOp at h
  split at h
  case h_8 e =>
    obtain ⟨hx, hd, -⟩ := zeroChecked_ok h
    have hop : fieldOp w = 0x7#4 := BitVec.eq_of_toNat_eq e
    rw [BitVec.ushiftRight_zero] at hd
    rw [← opWord_fields w, hop, hx, hd]
  case h_2 | h_3 | h_4 => obtain ⟨-, ⟨-, hj⟩ | ⟨-, hj⟩⟩ := ringChecked_ok h <;> cases hj
  case h_13 => cases h
  all_goals cases (zeroChecked_ok h).2.2

end Sys2Proof
end

