-- ==== Sys2Proof/Laws/Memory.lean ====
section
/-! SUPPORT. The laws of byte storage: a read after a write, and that a write keeps the canonical form. -/

namespace Sys2Proof.Machine

@[simp] theorem Memory.read_nil (i : Nat) : Memory.read [] i = Memory.unlisted := rfl

theorem Memory.read_cons (c : Host.Cell) (m : Memory) (i : Nat) :
    Memory.read (c :: m) i = if c.1 = i then c.2 else Memory.read m i := rfl

/-- A slot below every listed one reads as an unlisted one. -/
theorem Memory.read_of_all_gt (m : Memory) (i : Nat) (h : ∀ c ∈ m, i < c.1) : Memory.read m i = Memory.unlisted := by
  induction m with
  | nil => rfl
  | cons c rest ih =>
    have hc := h c List.mem_cons_self
    rw [Memory.read_cons, if_neg (by omega)]
    exact ih fun d hd => h d (List.mem_cons_of_mem _ hd)

theorem Memory.wf_tail {c : Host.Cell} {m : Memory} (h : Memory.wf (c :: m)) : m.wf :=
  ⟨(List.pairwise_cons.mp h.1).2, fun d hd => h.2 d (List.mem_cons_of_mem _ hd)⟩

theorem Memory.wf_head {c : Host.Cell} {m : Memory} (h : Memory.wf (c :: m)) : ∀ d ∈ m, c.1 < d.1 :=
  (List.pairwise_cons.mp h.1).1

/-- A listed slot after a write was listed before, or is the written one. -/
theorem Memory.mem_write {m : Memory} {i : Nat} {v : Byte} {d : Host.Cell} (h : d ∈ m.write i v) :
    d ∈ m ∨ (d = (i, v) ∧ v ≠ Memory.unlisted) := by
  induction m with
  | nil =>
    unfold Memory.write at h
    split at h <;> simp_all
  | cons c rest ih =>
    unfold Memory.write at h
    split at h
    · split at h <;> simp_all
      tauto
    · split at h
      · split at h <;> simp_all
        tauto
      · rcases List.mem_cons.mp h with h | h
        · exact .inl (h ▸ List.mem_cons_self)
        · exact (ih h).imp (List.mem_cons_of_mem _) id

/-- A write keeps the canonical form. -/
theorem Memory.write_wf {m : Memory} (h : m.wf) (i : Nat) (v : Byte) : (m.write i v).wf := by
  induction m with
  | nil =>
    unfold Memory.write
    split <;> simp_all [Memory.wf]
  | cons c rest ih =>
    have hr := ih (Memory.wf_tail h)
    have hh := Memory.wf_head h
    have hc := h.2 c List.mem_cons_self
    unfold Memory.write
    split
    · split
      · exact h
      · refine ⟨List.pairwise_cons.mpr ⟨?_, h.1⟩, ?_⟩
        · intro d hd
          rcases List.mem_cons.mp hd with rfl | hd
          · assumption
          · have := hh d hd; simp only; omega
        · intro d hd
          rcases List.mem_cons.mp hd with rfl | hd
          · assumption
          · exact h.2 d hd
    · split
      · split
        · exact Memory.wf_tail h
        · refine ⟨List.pairwise_cons.mpr ⟨?_, (Memory.wf_tail h).1⟩, ?_⟩
          · intro d hd; have := hh d hd; simp only; omega
          · intro d hd
            rcases List.mem_cons.mp hd with rfl | hd
            · assumption
            · exact (Memory.wf_tail h).2 d hd
      · refine ⟨List.pairwise_cons.mpr ⟨?_, hr.1⟩, ?_⟩
        · intro d hd
          rcases Memory.mem_write hd with hd | ⟨rfl, _⟩
          · exact hh d hd
          · simp only; omega
        · intro d hd
          rcases List.mem_cons.mp hd with rfl | hd
          · exact hc
          · exact hr.2 d hd

/-- A write to a slot that exists keeps every listed slot among those that do. -/
theorem Memory.write_below {m : Memory} {n i : Nat} (h : m.below n) (hi : i < n) (v : Byte) :
    (m.write i v).below n := by
  intro d hd
  rcases Memory.mem_write hd with hd | ⟨rfl, _⟩
  · exact h d hd
  · exact hi

/-- Every slot after a write: the written one holds the byte, the others are as before. -/
theorem Memory.read_write {m : Memory} (h : m.wf) (i j : Nat) (v : Byte) :
    (m.write i v).read j = if j = i then v else m.read j := by
  induction m with
  | nil =>
    unfold Memory.write
    split <;> simp_all [Memory.read_cons, eq_comm]
  | cons c rest ih =>
    have hr := ih (Memory.wf_tail h)
    have hh := Memory.wf_head h
    have hgt : i ≤ c.1 → Memory.read rest i = Memory.unlisted := fun hle =>
      Memory.read_of_all_gt rest i fun d hd => by have := hh d hd; omega
    unfold Memory.write
    split
    · rename_i hlt
      have h1 := hgt (by omega)
      split
      · by_cases hj : j = i
        · subst hj; rw [Memory.read_cons, if_neg (by omega), if_pos rfl]; simp_all
        · rw [if_neg hj]
      · rw [Memory.read_cons]; simp only [eq_comm]
    · split
      · rename_i heq
        have h1 := hgt (by omega)
        split
        · by_cases hj : j = i
          · subst hj; rw [if_pos rfl]; simp_all
          · rw [if_neg hj, Memory.read_cons, if_neg (by omega)]
        · rw [Memory.read_cons, Memory.read_cons]
          by_cases hj : j = i
          · simp [hj]
          · rw [if_neg (by simp only; omega), if_neg hj, if_neg (by omega)]
      · rw [Memory.read_cons, Memory.read_cons, hr]
        by_cases hc : c.1 = j
        · rw [if_pos hc, if_pos hc, if_neg (by omega)]
        · rw [if_neg hc, if_neg hc]

end Sys2Proof.Machine
end

