-- ==== Sys2Proof/Laws/Ring.lean ====
section
/-! SUPPORT. What the ring primitives do to a ring that obeys 10_state.md R25: the indices, the occupancy and the
unread bytes (10_state.md R24, R26). -/

namespace Sys2Proof.Machine

/-- The successor of an index modulo the capacity (10_state.md R22). -/
theorem succ_mod {a n : Nat} (h : a < n) : (a + 1) % n = if a + 1 = n then 0 else a + 1 := by
  split
  · rename_i e; rw [e, Nat.mod_self]
  · exact Nat.mod_eq_of_lt (by omega)

/-- An index `j` slots on, modulo the capacity. -/
theorem add_mod_cases {a j n : Nat} (ha : a < n) (hj : j ≤ n) :
    (a + j) % n = if a + j < n then a + j else a + j - n := by
  split
  · exact Nat.mod_eq_of_lt (by assumption)
  · rw [Nat.mod_eq_sub_mod (by omega)]
    rcases Nat.lt_or_ge (a + j - n) n with h | h
    · exact Nat.mod_eq_of_lt h
    · omega

/-- `Count` without a modulus (10_state.md R24). -/
theorem Ring.count_eq {n : Nat} {q : Ring} (h : q.ok n) :
    q.count n = if q.full then n else if q.rd ≤ q.wr then q.wr - q.rd else q.wr + n - q.rd := by
  obtain ⟨hw, hr, -, -, -⟩ := h
  unfold Ring.count
  split
  · rfl
  · rw [add_mod_cases hw (by omega)]
    split <;> split <;> omega

theorem Ring.count_le {n : Nat} {q : Ring} (h : q.ok n) : q.count n ≤ n := by
  rw [Ring.count_eq h]
  obtain ⟨hw, hr, -, -, -⟩ := h
  split <;> [exact Nat.le_refl n; (split <;> omega)]

/-- A ring is empty exactly when it holds no unread byte (10_state.md R23, R24). -/
theorem Ring.isEmpty_iff_count {n : Nat} {q : Ring} (h : q.ok n) : q.isEmpty = true ↔ q.count n = 0 := by
  rw [Ring.count_eq h]
  obtain ⟨hw, hr, -, -, -⟩ := h
  unfold Ring.isEmpty
  cases q.full <;> simp
  · split <;> omega
  · omega

@[simp] theorem Ring.unread_length (n : Nat) (q : Ring) : (q.unread n).length = q.count n := by
  simp [Ring.unread]

theorem Ring.unread_getElem {n : Nat} {q : Ring} {j : Nat} (h : j < (q.unread n).length) :
    (q.unread n)[j] = q.mem.read ((q.rd + j) % n) := by
  simp [Ring.unread]

/-- The ring after a push (40_ring_buffer.md R101). -/
def Ring.pushed (n : Nat) (q : Ring) (b : Byte) : Ring where
  mem := q.mem.write q.wr b
  wr := (q.wr + 1) % n
  rd := if q.full then (q.rd + 1) % n else q.rd
  full := q.full || (q.wr + 1) % n == q.rd

/-- The ring after a pop that takes a byte (40_ring_buffer.md R104). -/
def Ring.popped (n : Nat) (q : Ring) : Ring := { q with rd := (q.rd + 1) % n, full := false }

/-- What a push answers: the ring after and, from a full ring, the oldest unread byte. -/
theorem Ring.push_eq {n : Nat} {q : Ring} (h : q.ok n) (b : Byte) :
    q.push n b = some (q.pushed n b, if q.full then some (q.mem.read q.rd) else none) := by
  obtain ⟨hw, hr, hf, -, -⟩ := h
  unfold Ring.push Ring.pushed
  rw [if_pos hw]
  cases hq : q.full
  · simp
  · simp [hf hq]

/-- What the taking arm of a pop answers. -/
theorem Ring.pop_eq {n : Nat} {q : Ring} (h : q.ok n) : q.pop n = some (q.mem.read q.rd, q.popped n) := by
  unfold Ring.pop Ring.popped
  rw [if_pos h.2.1]

/-- A push keeps the ring invariants (10_state.md R25). -/
theorem Ring.pushed_ok {n : Nat} {q : Ring} (h : q.ok n) (b : Byte) : (q.pushed n b).ok n := by
  obtain ⟨hw, hr, hf, hm, hb⟩ := h
  refine ⟨Nat.mod_lt _ (by omega), ?_, ?_, Memory.write_wf hm _ _, Memory.write_below hb hw _⟩
  · simp only [Ring.pushed]; split
    · exact Nat.mod_lt _ (by omega)
    · exact hr
  · cases hq : q.full
    · simp [Ring.pushed, hq]
    · simp [Ring.pushed, hq, hf hq]

/-- A pop that takes a byte keeps the ring invariants (10_state.md R25). -/
theorem Ring.popped_ok {n : Nat} {q : Ring} (h : q.ok n) : (q.popped n).ok n := by
  obtain ⟨hw, hr, hf, hm, hb⟩ := h
  refine ⟨hw, Nat.mod_lt _ (by omega), ?_, hm, hb⟩
  simp [Ring.popped]

/-- `Count(q) = min(Count_before + 1, N)` after a push (40_ring_buffer.md R101). -/
theorem Ring.pushed_count {n : Nat} {q : Ring} (h : q.ok n) (b : Byte) :
    (q.pushed n b).count n = if q.full then n else q.count n + 1 := by
  rw [Ring.count_eq (Ring.pushed_ok h b), Ring.count_eq h]
  obtain ⟨hw, hr, hf, -, -⟩ := h
  simp only [Ring.pushed, succ_mod hw, succ_mod hr]
  cases hq : q.full
  · simp only [Bool.false_or, Bool.false_eq_true, if_false, beq_iff_eq]
    split_ifs <;> omega
  · simp

/-- One less after a pop that takes a byte (40_ring_buffer.md R104). -/
theorem Ring.popped_count {n : Nat} {q : Ring} (h : q.ok n) (he : q.isEmpty = false) :
    (q.popped n).count n + 1 = q.count n := by
  have hc : q.count n ≠ 0 := fun h0 => by simp [(Ring.isEmpty_iff_count h).mpr h0] at he
  rw [Ring.count_eq h] at hc ⊢
  rw [Ring.count_eq (Ring.popped_ok h)]
  obtain ⟨hw, hr, hf, -, -⟩ := h
  simp only [Ring.popped, succ_mod hr]
  cases hq : q.full
  · simp only [hq, Bool.false_eq_true, if_false] at hc ⊢
    split_ifs at hc ⊢ <;> omega
  · have := hf hq
    simp only [Bool.false_eq_true, if_false, if_true]
    split_ifs <;> omega

/-- The unread bytes after a push: the new byte last, and from a full ring the oldest lost (40_ring_buffer.md R101,
R110). -/
theorem Ring.pushed_unread {n : Nat} {q : Ring} (h : q.ok n) (b : Byte) :
    (q.pushed n b).unread n = (if q.full then (q.unread n).tail else q.unread n) ++ [b] := by
  have hlen := Ring.pushed_count h b
  have hc := Ring.count_eq h
  obtain ⟨hw, hr, hf, hm, -⟩ := h
  by_cases hq : q.full = true
  · have hwr := hf hq
    simp only [hq, if_true] at hlen hc ⊢
    apply List.ext_getElem
    · simp [hlen, hc]; omega
    · intro j h1 h2
      rw [Ring.unread_length, hlen] at h1
      have hm1 : (q.rd + 1) % n < n := Nat.mod_lt _ (by omega)
      rw [Ring.unread_getElem]
      simp only [Ring.pushed, hq, if_true]
      rw [Memory.read_write hm, List.getElem_append, Nat.mod_add_mod, Nat.add_assoc, Nat.add_comm 1 j,
        add_mod_cases hr (by omega)]
      simp only [List.length_tail, Ring.unread_length, hc]
      by_cases hj : j < n - 1
      · rw [dif_pos hj, List.getElem_tail, Ring.unread_getElem, add_mod_cases hr (by omega), if_neg]
        split_ifs <;> omega
      · rw [dif_neg hj, if_pos]
        · simp
        · split_ifs <;> omega
  · simp only [hq, Bool.false_eq_true, if_false] at hlen hc ⊢
    apply List.ext_getElem
    · simp [hlen]
    · intro j h1 h2
      rw [Ring.unread_length, hlen] at h1
      rw [Ring.unread_getElem]
      simp only [Ring.pushed, hq, Bool.false_eq_true, if_false]
      rw [Memory.read_write hm, List.getElem_append, add_mod_cases hr (by split at hc <;> omega)]
      simp only [Ring.unread_length]
      by_cases hj : j < q.count n
      · rw [dif_pos hj, Ring.unread_getElem, add_mod_cases hr (by split at hc <;> omega), if_neg]
        split_ifs at hc ⊢ <;> omega
      · rw [dif_neg hj, if_pos]
        · simp
        · split_ifs at hc ⊢ <;> omega

/-- The unread bytes of a ring that is not empty: the byte a pop takes, then those of the ring after
(40_ring_buffer.md R104). -/
theorem Ring.unread_eq_cons {n : Nat} {q : Ring} (h : q.ok n) (he : q.isEmpty = false) :
    q.unread n = q.mem.read q.rd :: (q.popped n).unread n := by
  have hlen := Ring.popped_count h he
  obtain ⟨hw, hr, hf, hm, -⟩ := h
  apply List.ext_getElem
  · simp [hlen]
  · intro j h1 h2
    rw [Ring.unread_getElem]
    cases j with
    | zero => simp [Nat.mod_eq_of_lt hr]
    | succ k =>
      rw [List.getElem_cons_succ, Ring.unread_getElem]
      simp only [Ring.popped]
      rw [Nat.mod_add_mod]
      congr 2
      omega

/-- An empty ring has no unread byte. -/
theorem Ring.unread_eq_nil {n : Nat} {q : Ring} (h : q.ok n) (he : q.isEmpty = true) : q.unread n = [] := by
  rw [← List.length_eq_zero_iff, Ring.unread_length]
  exact (Ring.isEmpty_iff_count h).mp he

end Sys2Proof.Machine
end

