-- ==== Sys2Proof/Laws/State.lean ====
section
/-! SUPPORT. One lemma per field per update of the state, true by definition, so that no proof unfolds an update. -/

namespace Sys2Proof.Machine

@[simp] theorem State.withResult_cfg (s : State) (v : Byte) : (s.withResult v).cfg = s.cfg := rfl
@[simp] theorem State.withResult_rx (s : State) (v : Byte) : (s.withResult v).rx = s.rx := rfl
@[simp] theorem State.withResult_tx (s : State) (v : Byte) : (s.withResult v).tx = s.tx := rfl
@[simp] theorem State.withResult_fr (s : State) (v : Byte) : (s.withResult v).fr = s.fr := rfl
@[simp] theorem State.withResult_status (s : State) (v : Byte) : (s.withResult v).status = s.status := rfl
@[simp] theorem State.withResult_rxie (s : State) (v : Byte) : (s.withResult v).rxie = s.rxie := rfl
@[simp] theorem State.withResult_txie (s : State) (v : Byte) : (s.withResult v).txie = s.txie := rfl
@[simp] theorem State.withResult_txAct (s : State) (v : Byte) : (s.withResult v).txAct = s.txAct := rfl
@[simp] theorem State.withResult_evh (s : State) (v : Byte) : (s.withResult v).evh = s.evh := rfl
@[simp] theorem State.withResult_txd (s : State) (v : Byte) : (s.withResult v).txd = s.txd := rfl
@[simp] theorem State.withResult_rxline (s : State) (v : Byte) : (s.withResult v).rxline = s.rxline := rfl
@[simp] theorem State.withResult_refused (s : State) (v : Byte) : (s.withResult v).refused = s.refused := rfl
@[simp] theorem State.withResult_agent (s : State) (v : Byte) : (s.withResult v).agent = s.agent := rfl
@[simp] theorem State.withResult_result (s : State) (v : Byte) : (s.withResult v).result = some v := rfl
@[simp] theorem State.withResult_turns (s : State) (v : Byte) : (s.withResult v).turns = s.turns := rfl
@[simp] theorem State.withResult_draws (s : State) (v : Byte) : (s.withResult v).draws = s.draws := rfl

@[simp] theorem State.setFramer_cfg (s : State) (f : Framer) : (s.setFramer f).cfg = s.cfg := rfl
@[simp] theorem State.setFramer_rx (s : State) (f : Framer) : (s.setFramer f).rx = s.rx := rfl
@[simp] theorem State.setFramer_tx (s : State) (f : Framer) : (s.setFramer f).tx = s.tx := rfl
@[simp] theorem State.setFramer_fr (s : State) (f : Framer) : (s.setFramer f).fr = f := rfl
@[simp] theorem State.setFramer_status (s : State) (f : Framer) : (s.setFramer f).status = s.status := rfl
@[simp] theorem State.setFramer_rxie (s : State) (f : Framer) : (s.setFramer f).rxie = s.rxie := rfl
@[simp] theorem State.setFramer_txie (s : State) (f : Framer) : (s.setFramer f).txie = s.txie := rfl
@[simp] theorem State.setFramer_txAct (s : State) (f : Framer) : (s.setFramer f).txAct = s.txAct := rfl
@[simp] theorem State.setFramer_evh (s : State) (f : Framer) : (s.setFramer f).evh = s.evh := rfl
@[simp] theorem State.setFramer_txd (s : State) (f : Framer) : (s.setFramer f).txd = s.txd := rfl
@[simp] theorem State.setFramer_rxline (s : State) (f : Framer) : (s.setFramer f).rxline = s.rxline := rfl
@[simp] theorem State.setFramer_refused (s : State) (f : Framer) : (s.setFramer f).refused = s.refused := rfl
@[simp] theorem State.setFramer_agent (s : State) (f : Framer) : (s.setFramer f).agent = s.agent := rfl
@[simp] theorem State.setFramer_result (s : State) (f : Framer) : (s.setFramer f).result = s.result := rfl
@[simp] theorem State.setFramer_turns (s : State) (f : Framer) : (s.setFramer f).turns = s.turns := rfl
@[simp] theorem State.setFramer_draws (s : State) (f : Framer) : (s.setFramer f).draws = s.draws := rfl

@[simp] theorem State.raise_cfg (s : State) (e : Event) : (s.raise e).cfg = s.cfg := rfl
@[simp] theorem State.raise_rx (s : State) (e : Event) : (s.raise e).rx = s.rx := rfl
@[simp] theorem State.raise_tx (s : State) (e : Event) : (s.raise e).tx = s.tx := rfl
@[simp] theorem State.raise_fr (s : State) (e : Event) : (s.raise e).fr = s.fr := rfl
@[simp] theorem State.raise_status (s : State) (e : Event) : (s.raise e).status = statusSet s.status e := rfl
@[simp] theorem State.raise_rxie (s : State) (e : Event) : (s.raise e).rxie = s.rxie := rfl
@[simp] theorem State.raise_txie (s : State) (e : Event) : (s.raise e).txie = s.txie := rfl
@[simp] theorem State.raise_txAct (s : State) (e : Event) : (s.raise e).txAct = s.txAct := rfl
@[simp] theorem State.raise_evh (s : State) (e : Event) : (s.raise e).evh = s.evh ++ [⟨e, s.agent⟩] := rfl
@[simp] theorem State.raise_txd (s : State) (e : Event) : (s.raise e).txd = s.txd := rfl
@[simp] theorem State.raise_rxline (s : State) (e : Event) : (s.raise e).rxline = s.rxline := rfl
@[simp] theorem State.raise_refused (s : State) (e : Event) : (s.raise e).refused = s.refused := rfl
@[simp] theorem State.raise_agent (s : State) (e : Event) : (s.raise e).agent = s.agent := rfl
@[simp] theorem State.raise_result (s : State) (e : Event) : (s.raise e).result = s.result := rfl
@[simp] theorem State.raise_turns (s : State) (e : Event) : (s.raise e).turns = s.turns := rfl
@[simp] theorem State.raise_draws (s : State) (e : Event) : (s.raise e).draws = s.draws := rfl

@[simp] theorem State.refuse_cfg (s : State) (w : RefuseReason) : (s.refuse w).cfg = s.cfg := rfl
@[simp] theorem State.refuse_rx (s : State) (w : RefuseReason) : (s.refuse w).rx = s.rx := rfl
@[simp] theorem State.refuse_tx (s : State) (w : RefuseReason) : (s.refuse w).tx = s.tx := rfl
@[simp] theorem State.refuse_fr (s : State) (w : RefuseReason) : (s.refuse w).fr = s.fr := rfl
@[simp] theorem State.refuse_status (s : State) (w : RefuseReason) : (s.refuse w).status = s.status := rfl
@[simp] theorem State.refuse_rxie (s : State) (w : RefuseReason) : (s.refuse w).rxie = s.rxie := rfl
@[simp] theorem State.refuse_txie (s : State) (w : RefuseReason) : (s.refuse w).txie = s.txie := rfl
@[simp] theorem State.refuse_txAct (s : State) (w : RefuseReason) : (s.refuse w).txAct = s.txAct := rfl
@[simp] theorem State.refuse_evh (s : State) (w : RefuseReason) : (s.refuse w).evh = s.evh := rfl
@[simp] theorem State.refuse_txd (s : State) (w : RefuseReason) : (s.refuse w).txd = s.txd := rfl
@[simp] theorem State.refuse_rxline (s : State) (w : RefuseReason) : (s.refuse w).rxline = s.rxline := rfl
@[simp] theorem State.refuse_refused (s : State) (w : RefuseReason) : (s.refuse w).refused = some w := rfl
@[simp] theorem State.refuse_agent (s : State) (w : RefuseReason) : (s.refuse w).agent = s.agent := rfl
@[simp] theorem State.refuse_result (s : State) (w : RefuseReason) : (s.refuse w).result = none := rfl
@[simp] theorem State.refuse_turns (s : State) (w : RefuseReason) : (s.refuse w).turns = s.turns := rfl
@[simp] theorem State.refuse_draws (s : State) (w : RefuseReason) : (s.refuse w).draws = s.draws := rfl

@[simp] theorem State.emit_cfg (s : State) (b : Byte) : (s.emit b).cfg = s.cfg := rfl
@[simp] theorem State.emit_rx (s : State) (b : Byte) : (s.emit b).rx = s.rx := rfl
@[simp] theorem State.emit_tx (s : State) (b : Byte) : (s.emit b).tx = s.tx := rfl
@[simp] theorem State.emit_fr (s : State) (b : Byte) : (s.emit b).fr = s.fr := rfl
@[simp] theorem State.emit_status (s : State) (b : Byte) : (s.emit b).status = s.status := rfl
@[simp] theorem State.emit_rxie (s : State) (b : Byte) : (s.emit b).rxie = s.rxie := rfl
@[simp] theorem State.emit_txie (s : State) (b : Byte) : (s.emit b).txie = s.txie := rfl
@[simp] theorem State.emit_txAct (s : State) (b : Byte) : (s.emit b).txAct = s.txAct := rfl
@[simp] theorem State.emit_evh (s : State) (b : Byte) : (s.emit b).evh = s.evh := rfl
@[simp] theorem State.emit_txd (s : State) (b : Byte) : (s.emit b).txd = s.txd ++ [b] := rfl
@[simp] theorem State.emit_rxline (s : State) (b : Byte) : (s.emit b).rxline = s.rxline := rfl
@[simp] theorem State.emit_refused (s : State) (b : Byte) : (s.emit b).refused = s.refused := rfl
@[simp] theorem State.emit_agent (s : State) (b : Byte) : (s.emit b).agent = s.agent := rfl
@[simp] theorem State.emit_result (s : State) (b : Byte) : (s.emit b).result = s.result := rfl
@[simp] theorem State.emit_turns (s : State) (b : Byte) : (s.emit b).turns = s.turns := rfl
@[simp] theorem State.emit_draws (s : State) (b : Byte) : (s.emit b).draws = s.draws := rfl

@[simp] theorem State.blockReset_cfg (s : State) : (s.blockReset).cfg = s.cfg := rfl
@[simp] theorem State.blockReset_rx (s : State) : (s.blockReset).rx = ⟨s.rx.mem, 0, 0, false⟩ := rfl
@[simp] theorem State.blockReset_tx (s : State) : (s.blockReset).tx = ⟨s.tx.mem, 0, 0, false⟩ := rfl
@[simp] theorem State.blockReset_fr (s : State) : (s.blockReset).fr = s.fr.cleared .ah := rfl
@[simp] theorem State.blockReset_status (s : State) : (s.blockReset).status = 0#5 := rfl
@[simp] theorem State.blockReset_rxie (s : State) : (s.blockReset).rxie = false := rfl
@[simp] theorem State.blockReset_txie (s : State) : (s.blockReset).txie = false := rfl
@[simp] theorem State.blockReset_txAct (s : State) : (s.blockReset).txAct = false := rfl
@[simp] theorem State.blockReset_evh (s : State) : (s.blockReset).evh = [] := rfl
@[simp] theorem State.blockReset_txd (s : State) : (s.blockReset).txd = [] := rfl
@[simp] theorem State.blockReset_rxline (s : State) : (s.blockReset).rxline = s.rxline := rfl
@[simp] theorem State.blockReset_refused (s : State) : (s.blockReset).refused = s.refused := rfl
@[simp] theorem State.blockReset_agent (s : State) : (s.blockReset).agent = .main := rfl
@[simp] theorem State.blockReset_result (s : State) : (s.blockReset).result = none := rfl
@[simp] theorem State.blockReset_turns (s : State) : (s.blockReset).turns = s.turns := rfl
@[simp] theorem State.blockReset_draws (s : State) : (s.blockReset).draws = s.draws := rfl

@[simp] theorem State.setRing_rx_cfg (s : State) (r : Ring) : (s.setRing .rx r).cfg = s.cfg := rfl
@[simp] theorem State.setRing_rx_rx (s : State) (r : Ring) : (s.setRing .rx r).rx = r := rfl
@[simp] theorem State.setRing_rx_tx (s : State) (r : Ring) : (s.setRing .rx r).tx = s.tx := rfl
@[simp] theorem State.setRing_rx_fr (s : State) (r : Ring) : (s.setRing .rx r).fr = s.fr := rfl
@[simp] theorem State.setRing_rx_status (s : State) (r : Ring) : (s.setRing .rx r).status = s.status := rfl
@[simp] theorem State.setRing_rx_rxie (s : State) (r : Ring) : (s.setRing .rx r).rxie = s.rxie := rfl
@[simp] theorem State.setRing_rx_txie (s : State) (r : Ring) : (s.setRing .rx r).txie = s.txie := rfl
@[simp] theorem State.setRing_rx_txAct (s : State) (r : Ring) : (s.setRing .rx r).txAct = s.txAct := rfl
@[simp] theorem State.setRing_rx_evh (s : State) (r : Ring) : (s.setRing .rx r).evh = s.evh := rfl
@[simp] theorem State.setRing_rx_txd (s : State) (r : Ring) : (s.setRing .rx r).txd = s.txd := rfl
@[simp] theorem State.setRing_rx_rxline (s : State) (r : Ring) : (s.setRing .rx r).rxline = s.rxline := rfl
@[simp] theorem State.setRing_rx_refused (s : State) (r : Ring) : (s.setRing .rx r).refused = s.refused := rfl
@[simp] theorem State.setRing_rx_agent (s : State) (r : Ring) : (s.setRing .rx r).agent = s.agent := rfl
@[simp] theorem State.setRing_rx_result (s : State) (r : Ring) : (s.setRing .rx r).result = s.result := rfl
@[simp] theorem State.setRing_rx_turns (s : State) (r : Ring) : (s.setRing .rx r).turns = s.turns := rfl
@[simp] theorem State.setRing_rx_draws (s : State) (r : Ring) : (s.setRing .rx r).draws = s.draws := rfl

@[simp] theorem State.setRing_tx_cfg (s : State) (r : Ring) : (s.setRing .tx r).cfg = s.cfg := rfl
@[simp] theorem State.setRing_tx_rx (s : State) (r : Ring) : (s.setRing .tx r).rx = s.rx := rfl
@[simp] theorem State.setRing_tx_tx (s : State) (r : Ring) : (s.setRing .tx r).tx = r := rfl
@[simp] theorem State.setRing_tx_fr (s : State) (r : Ring) : (s.setRing .tx r).fr = s.fr := rfl
@[simp] theorem State.setRing_tx_status (s : State) (r : Ring) : (s.setRing .tx r).status = s.status := rfl
@[simp] theorem State.setRing_tx_rxie (s : State) (r : Ring) : (s.setRing .tx r).rxie = s.rxie := rfl
@[simp] theorem State.setRing_tx_txie (s : State) (r : Ring) : (s.setRing .tx r).txie = s.txie := rfl
@[simp] theorem State.setRing_tx_txAct (s : State) (r : Ring) : (s.setRing .tx r).txAct = s.txAct := rfl
@[simp] theorem State.setRing_tx_evh (s : State) (r : Ring) : (s.setRing .tx r).evh = s.evh := rfl
@[simp] theorem State.setRing_tx_txd (s : State) (r : Ring) : (s.setRing .tx r).txd = s.txd := rfl
@[simp] theorem State.setRing_tx_rxline (s : State) (r : Ring) : (s.setRing .tx r).rxline = s.rxline := rfl
@[simp] theorem State.setRing_tx_refused (s : State) (r : Ring) : (s.setRing .tx r).refused = s.refused := rfl
@[simp] theorem State.setRing_tx_agent (s : State) (r : Ring) : (s.setRing .tx r).agent = s.agent := rfl
@[simp] theorem State.setRing_tx_result (s : State) (r : Ring) : (s.setRing .tx r).result = s.result := rfl
@[simp] theorem State.setRing_tx_turns (s : State) (r : Ring) : (s.setRing .tx r).turns = s.turns := rfl
@[simp] theorem State.setRing_tx_draws (s : State) (r : Ring) : (s.setRing .tx r).draws = s.draws := rfl

@[simp] theorem State.setRing_cfg (s : State) (q : RingSel) (r : Ring) : (s.setRing q r).cfg = s.cfg := by
  cases q <;> rfl
@[simp] theorem State.setRing_fr (s : State) (q : RingSel) (r : Ring) : (s.setRing q r).fr = s.fr := by
  cases q <;> rfl
@[simp] theorem State.setRing_status (s : State) (q : RingSel) (r : Ring) : (s.setRing q r).status = s.status := by
  cases q <;> rfl
@[simp] theorem State.setRing_rxie (s : State) (q : RingSel) (r : Ring) : (s.setRing q r).rxie = s.rxie := by
  cases q <;> rfl
@[simp] theorem State.setRing_txie (s : State) (q : RingSel) (r : Ring) : (s.setRing q r).txie = s.txie := by
  cases q <;> rfl
@[simp] theorem State.setRing_txAct (s : State) (q : RingSel) (r : Ring) : (s.setRing q r).txAct = s.txAct := by
  cases q <;> rfl
@[simp] theorem State.setRing_evh (s : State) (q : RingSel) (r : Ring) : (s.setRing q r).evh = s.evh := by
  cases q <;> rfl
@[simp] theorem State.setRing_txd (s : State) (q : RingSel) (r : Ring) : (s.setRing q r).txd = s.txd := by
  cases q <;> rfl
@[simp] theorem State.setRing_rxline (s : State) (q : RingSel) (r : Ring) : (s.setRing q r).rxline = s.rxline := by
  cases q <;> rfl
@[simp] theorem State.setRing_refused (s : State) (q : RingSel) (r : Ring) : (s.setRing q r).refused = s.refused := by
  cases q <;> rfl
@[simp] theorem State.setRing_agent (s : State) (q : RingSel) (r : Ring) : (s.setRing q r).agent = s.agent := by
  cases q <;> rfl
@[simp] theorem State.setRing_result (s : State) (q : RingSel) (r : Ring) : (s.setRing q r).result = s.result := by
  cases q <;> rfl
@[simp] theorem State.setRing_turns (s : State) (q : RingSel) (r : Ring) : (s.setRing q r).turns = s.turns := by
  cases q <;> rfl
@[simp] theorem State.setRing_draws (s : State) (q : RingSel) (r : Ring) : (s.setRing q r).draws = s.draws := by
  cases q <;> rfl
@[simp] theorem State.withTurns_cfg (s : State) (l : List Turn) : (s.withTurns l).cfg = s.cfg := rfl
@[simp] theorem State.withTurns_rx (s : State) (l : List Turn) : (s.withTurns l).rx = s.rx := rfl
@[simp] theorem State.withTurns_tx (s : State) (l : List Turn) : (s.withTurns l).tx = s.tx := rfl
@[simp] theorem State.withTurns_fr (s : State) (l : List Turn) : (s.withTurns l).fr = s.fr := rfl
@[simp] theorem State.withTurns_status (s : State) (l : List Turn) : (s.withTurns l).status = s.status := rfl
@[simp] theorem State.withTurns_rxie (s : State) (l : List Turn) : (s.withTurns l).rxie = s.rxie := rfl
@[simp] theorem State.withTurns_txie (s : State) (l : List Turn) : (s.withTurns l).txie = s.txie := rfl
@[simp] theorem State.withTurns_txAct (s : State) (l : List Turn) : (s.withTurns l).txAct = s.txAct := rfl
@[simp] theorem State.withTurns_evh (s : State) (l : List Turn) : (s.withTurns l).evh = s.evh := rfl
@[simp] theorem State.withTurns_txd (s : State) (l : List Turn) : (s.withTurns l).txd = s.txd := rfl
@[simp] theorem State.withTurns_rxline (s : State) (l : List Turn) : (s.withTurns l).rxline = s.rxline := rfl
@[simp] theorem State.withTurns_refused (s : State) (l : List Turn) : (s.withTurns l).refused = s.refused := rfl
@[simp] theorem State.withTurns_agent (s : State) (l : List Turn) : (s.withTurns l).agent = s.agent := rfl
@[simp] theorem State.withTurns_result (s : State) (l : List Turn) : (s.withTurns l).result = s.result := rfl
@[simp] theorem State.withTurns_turns (s : State) (l : List Turn) : (s.withTurns l).turns = l := rfl
@[simp] theorem State.withTurns_draws (s : State) (l : List Turn) : (s.withTurns l).draws = s.draws := rfl

@[simp] theorem State.issuing_cfg (s : State) (a : Agent) (l : List Byte) : (s.issuing a l).cfg = s.cfg := rfl
@[simp] theorem State.issuing_rx (s : State) (a : Agent) (l : List Byte) : (s.issuing a l).rx = s.rx := rfl
@[simp] theorem State.issuing_tx (s : State) (a : Agent) (l : List Byte) : (s.issuing a l).tx = s.tx := rfl
@[simp] theorem State.issuing_fr (s : State) (a : Agent) (l : List Byte) : (s.issuing a l).fr = s.fr := rfl
@[simp] theorem State.issuing_status (s : State) (a : Agent) (l : List Byte) : (s.issuing a l).status = s.status := rfl
@[simp] theorem State.issuing_rxie (s : State) (a : Agent) (l : List Byte) : (s.issuing a l).rxie = s.rxie := rfl
@[simp] theorem State.issuing_txie (s : State) (a : Agent) (l : List Byte) : (s.issuing a l).txie = s.txie := rfl
@[simp] theorem State.issuing_txAct (s : State) (a : Agent) (l : List Byte) : (s.issuing a l).txAct = s.txAct := rfl
@[simp] theorem State.issuing_evh (s : State) (a : Agent) (l : List Byte) : (s.issuing a l).evh = s.evh := rfl
@[simp] theorem State.issuing_txd (s : State) (a : Agent) (l : List Byte) : (s.issuing a l).txd = s.txd := rfl
@[simp] theorem State.issuing_rxline (s : State) (a : Agent) (l : List Byte) : (s.issuing a l).rxline = l := rfl
@[simp] theorem State.issuing_refused (s : State) (a : Agent) (l : List Byte) : (s.issuing a l).refused = s.refused := rfl
@[simp] theorem State.issuing_agent (s : State) (a : Agent) (l : List Byte) : (s.issuing a l).agent = a := rfl
@[simp] theorem State.issuing_result (s : State) (a : Agent) (l : List Byte) : (s.issuing a l).result = s.result := rfl
@[simp] theorem State.issuing_turns (s : State) (a : Agent) (l : List Byte) : (s.issuing a l).turns = s.turns := rfl
@[simp] theorem State.issuing_draws (s : State) (a : Agent) (l : List Byte) : (s.issuing a l).draws = s.draws := rfl

@[simp] theorem State.ring_rx (s : State) : s.ring .rx = s.rx := rfl
@[simp] theorem State.ring_tx (s : State) : s.ring .tx = s.tx := rfl

@[simp] theorem State.setRing_ring (s : State) (q : RingSel) (r : Ring) : (s.setRing q r).ring q = r := by
  cases q <;> rfl

@[simp] theorem Framer.cleared_fst (f : Framer) (st : FState) : (f.cleared st).fst = st := rfl
@[simp] theorem Framer.cleared_body (f : Framer) (st : FState) : (f.cleared st).body = f.body := rfl
@[simp] theorem Framer.cleared_bodyLen (f : Framer) (st : FState) : (f.cleared st).bodyLen = 0x00#8 := rfl
@[simp] theorem Framer.cleared_cmd (f : Framer) (st : FState) : (f.cleared st).cmd = .none := rfl
@[simp] theorem Framer.cleared_width (f : Framer) (st : FState) : (f.cleared st).width = 0xFF#8 := rfl

end Sys2Proof.Machine
end

