-- ==== Sys2Proof/Laws/Ops.lean ====
section
/-! SUPPORT. What each shared operation can do, said once: its answer where its premises hold, and for any state every
form its next state can have. -/

namespace Sys2Proof.Machine

@[simp] theorem andThen_next {α β : Type} (a : α) (f : α → Answer β) : andThen (.next a) f = f a := rfl
@[simp] theorem andThen_fault {α β : Type} (r : Fault) (f : α → Answer β) : andThen (.fault r) f = .fault r := rfl
@[simp] theorem andThen_refused {α β : Type} (r : Refusal) (f : α → Answer β) : andThen (.refused r) f = .refused r := rfl

/-- An answer that goes on came from an answer that went on. -/
theorem andThen_eq_next {α β : Type} {o : Answer α} {f : α → Answer β} {b : β} (h : andThen o f = .next b) :
    ∃ a, o = .next a ∧ f a = .next b := by
  cases o with
  | next a => exact ⟨a, rfl, h⟩
  | fault r => cases h
  | refused r => cases h

theorem issuedBy_of_agent {a : Agent} {s : State} (h : s.agent = a) (k : State → Answer State) :
    issuedBy a s k = k s := if_pos h

theorem issuedBy_of_ne {a : Agent} {s : State} (h : s.agent ≠ a) (k : State → Answer State) :
    issuedBy a s k = .next (s.refuse .wrongAgent) := if_neg h

/-- Either the permitted agent's operation answered, or the operation was refused. -/
theorem issuedBy_next {a : Agent} {s t : State} {k : State → Answer State} (h : issuedBy a s k = .next t) :
    (s.agent = a ∧ k s = .next t) ∨ (s.agent ≠ a ∧ t = s.refuse .wrongAgent) := by
  unfold issuedBy at h
  split at h
  · exact .inl ⟨by assumption, h⟩
  · cases h; exact .inr ⟨by assumption, rfl⟩

/-- The state after a push (40_ring_buffer.md R101). -/
theorem pushRing_eq {q : RingSel} {s : State} (h : (s.ring q).ok s.cfg.n) (b : Byte) :
    pushRing q b s = .next (if (s.ring q).full then
        (s.setRing q ((s.ring q).pushed s.cfg.n b)).raise (.overflow q ((s.ring q).mem.read (s.ring q).rd) b)
      else s.setRing q ((s.ring q).pushed s.cfg.n b)) := by
  unfold pushRing
  rw [Ring.push_eq h]
  cases (s.ring q).full <;> rfl

/-- Every next state of a push, in any state: the ring, and from a full ring one overflow event. -/
theorem pushRing_next {q : RingSel} {b : Byte} {s t : State} (h : pushRing q b s = .next t) :
    ∃ r, ((s.ring q).full = false ∧ t = s.setRing q r) ∨
      ((s.ring q).full = true ∧ ∃ lost, t = (s.setRing q r).raise (.overflow q lost b)) := by
  unfold pushRing Ring.push at h
  split at h
  · cases h
  · rename_i r e
    cases h
    split at e
    · split at e
      · simp at e
      · exact ⟨r, .inl ⟨by simp_all, rfl⟩⟩
    · cases e
  · rename_i r lost e
    cases h
    split at e
    · split at e
      · exact ⟨r, .inr ⟨by assumption, lost, rfl⟩⟩
      · simp at e
    · cases e

/-- A pop of an empty ring (40_ring_buffer.md R104, R111). -/
theorem popRing_of_empty {q : RingSel} {s : State} (he : (s.ring q).isEmpty = true) :
    popRing q s = .next (0x00#8, s.raise (.underflow q)) := by
  unfold popRing; rw [if_pos he]

/-- A pop of a ring that is not empty (40_ring_buffer.md R104). -/
theorem popRing_of_nonempty {q : RingSel} {s : State} (h : (s.ring q).ok s.cfg.n) (he : (s.ring q).isEmpty = false) :
    popRing q s = .next ((s.ring q).mem.read (s.ring q).rd, s.setRing q ((s.ring q).popped s.cfg.n)) := by
  unfold popRing
  rw [if_neg (by simp [he]), Ring.pop_eq h]

/-- Every next state of a pop, in any state. -/
theorem popRing_next {q : RingSel} {s : State} {p : Byte × State} (h : popRing q s = .next p) :
    ((s.ring q).isEmpty = true ∧ p = (0x00#8, s.raise (.underflow q))) ∨
    ((s.ring q).isEmpty = false ∧
      p = ((s.ring q).mem.read (s.ring q).rd, s.setRing q ((s.ring q).popped s.cfg.n))) := by
  unfold popRing at h
  split at h
  · cases h; exact .inl ⟨by assumption, rfl⟩
  · rename_i he
    split at h
    · cases h
    · rename_i e
      cases h
      unfold Ring.pop at e
      split at e
      · cases e; exact .inr ⟨by simpa using he, rfl⟩
      · cases e

/-- An emptiness test of an empty ring (20_memory.md R66). -/
theorem emptySeen_of_empty {q : RingSel} {s : State} (he : (s.ring q).isEmpty = true) : emptySeen q s = (true, s) := by
  unfold emptySeen; rw [if_pos he]

/-- An exact emptiness test of a ring that is not empty (20_memory.md R66). -/
theorem emptySeen_of_exact {q : RingSel} {s : State} (he : (s.ring q).isEmpty = false) (hs : s.cfg.staleEmpty = false) :
    emptySeen q s = (false, s) := by
  unfold emptySeen; simp [he, hs]

/-- Every outcome of an emptiness test: it changes at most the draw counter, and answers "not empty" only of a ring
that is not empty (20_memory.md R66). -/
theorem emptySeen_cases (q : RingSel) (s : State) :
    ∃ k, (emptySeen q s).2 = { s with draws := k } ∧
      ((emptySeen q s).1 = false → (s.ring q).isEmpty = false) := by
  unfold emptySeen
  split
  · exact ⟨s.draws, rfl, by simp⟩
  · split
    · exact ⟨s.draws + 1, rfl, by simp_all⟩
    · exact ⟨s.draws, rfl, by simp_all⟩

/-- Sending a byte of a ring that is not empty: the oldest byte goes to the line (41_transport.md R122). -/
theorem sendByte_eq {s : State} (h : s.tx.ok s.cfg.n) (he : s.tx.isEmpty = false) :
    sendByte s = .next ((s.setRing .tx (s.tx.popped s.cfg.n)).emit (s.tx.mem.read s.tx.rd)) := by
  unfold sendByte
  rw [popRing_of_nonempty (q := .tx) h he]
  rfl

/-- Every next state of sending a byte of a ring that is not empty, in any state. -/
theorem sendByte_next {s t : State} (he : s.tx.isEmpty = false) (h : sendByte s = .next t) :
    t = (s.setRing .tx (s.tx.popped s.cfg.n)).emit (s.tx.mem.read s.tx.rd) := by
  obtain ⟨p, hp, ht⟩ := andThen_eq_next h
  rcases popRing_next hp with ⟨h1, -⟩ | ⟨-, rfl⟩
  · simp [he] at h1
  · cases ht; rfl

/-- Everything the framer's arms can do with a byte (42_framer.md R141 to R145, R149). -/
theorem takeByte_cases (b : Byte) (s : State) :
    (s.fr.fst = .ad ∧ takeByte b s = s.withResult 0x00#8) ∨
    (s.fr.fst = .ah ∧ b = headerByte s.cfg.grammar ∧
      takeByte b s = (s.setFramer (s.fr.cleared .ab)).withResult 0x01#8) ∨
    (s.fr.fst = .ah ∧ b ≠ headerByte s.cfg.grammar ∧ takeByte b s = s.withResult 0x01#8) ∨
    (s.fr.fst = .ab ∧ b = headerByte s.cfg.grammar ∧
      takeByte b s = ((s.raise (.framingRestart s.fr.bodyLen)).setFramer (s.fr.cleared .ab)).withResult 0x03#8) ∨
    (s.fr.fst = .ab ∧ b ≠ headerByte s.cfg.grammar ∧ b = endByte s.cfg.grammar ∧ frameOK s.cfg s.fr = true ∧
      takeByte b s = (s.setFramer { s.fr with fst := .ad }).withResult 0x05#8) ∨
    (s.fr.fst = .ab ∧ b ≠ headerByte s.cfg.grammar ∧ b = endByte s.cfg.grammar ∧ frameOK s.cfg s.fr = false ∧
      takeByte b s = ((s.raise (.framingLength s.fr.bodyLen s.fr.cmd)).setFramer (s.fr.cleared .ah)).withResult 0x03#8) ∨
    (s.fr.fst = .ab ∧ b ≠ headerByte s.cfg.grammar ∧ b ≠ endByte s.cfg.grammar ∧
      takeByte b s = (s.setFramer (s.fr.collect s.cfg b)).withResult 0x01#8) := by
  unfold takeByte byteClass
  cases hs : s.fr.fst <;> by_cases h1 : b = headerByte s.cfg.grammar <;> by_cases h2 : b = endByte s.cfg.grammar <;>
    cases h3 : frameOK s.cfg s.fr <;> simp_all [closeFrame, restartFrame] <;> rfl

/-- The framer's arms read neither ring nor turn list, and keep both (42_framer.md R141 to R145). -/
theorem takeByte_with_rx_turns (b : Byte) (s : State) (r : Ring) (l : List Turn) :
    takeByte b { s with rx := r, turns := l } = { takeByte b s with rx := r, turns := l } := by
  unfold takeByte closeFrame restartFrame
  cases s.fr.fst <;> cases byteClass s.cfg.grammar b <;> first | rfl | (simp only []; split <;> rfl)

/-- What the framer's arms leave alone (42_framer.md R141 to R145). -/
theorem takeByte_frame (b : Byte) (s : State) :
    (takeByte b s).cfg = s.cfg ∧ (takeByte b s).agent = s.agent ∧ (takeByte b s).refused = s.refused ∧
    (takeByte b s).tx = s.tx ∧ (takeByte b s).txd = s.txd ∧ (takeByte b s).rxline = s.rxline ∧
    (takeByte b s).ctrlReg = s.ctrlReg ∧ (takeByte b s).draws = s.draws := by
  rcases takeByte_cases b s with ⟨-, h⟩ | ⟨-, -, h⟩ | ⟨-, -, h⟩ | ⟨-, -, h⟩ | ⟨-, -, -, -, h⟩ | ⟨-, -, -, -, h⟩ | ⟨-, -, -, h⟩ <;>
    simp [h, State.ctrlReg]

@[simp] theorem takeByte_cfg (b : Byte) (s : State) : (takeByte b s).cfg = s.cfg := (takeByte_frame b s).1
@[simp] theorem takeByte_agent (b : Byte) (s : State) : (takeByte b s).agent = s.agent := (takeByte_frame b s).2.1
@[simp] theorem takeByte_refused (b : Byte) (s : State) : (takeByte b s).refused = s.refused := (takeByte_frame b s).2.2.1

end Sys2Proof.Machine
end

