-- ==== Sys2Proof/Laws/Framer.lean ====
section
/-! SUPPORT. The framer's updates keep the invariants of 10_state.md R30, R32 and R33. -/

namespace Sys2Proof.Machine

/-- A lookup always answers a command type of a mnemonic, or `UNDEF` (42_framer.md R146). -/
theorem lookupCmd_ne_none (p : Pattern) : lookupCmd p ≠ .none := by
  unfold lookupCmd
  split <;> simp

/-- A frame that is open, or none, with no body (10_state.md R33). -/
theorem Framer.cleared_ok {c : Config} {f : Framer} (h : f.ok c) {st : FState} (hs : st ≠ .ad) :
    (f.cleared st).ok c := by
  obtain ⟨-, -, -, -, -, hw, hb⟩ := h
  refine ⟨fun _ => ⟨rfl, rfl, rfl⟩, by simp, rfl, by simp, fun h => absurd h hs, hw, hb⟩

/-- The length after an append, as a number (42_framer.md R145). -/
theorem Framer.append_len {c : Config} (hc : c.wf) (f : Framer) (b : Byte) :
    (f.append c b).bodyLen.toNat = min (f.bodyLen.toNat + 1) (c.bodyMax + 1) := by
  obtain ⟨-, -, -, h⟩ := hc
  simp only [Framer.append, BitVec.toNat_ofNat]
  exact Nat.mod_eq_of_lt (by omega)

theorem Framer.append_body_wf {c : Config} {f : Framer} (h : f.body.wf) (b : Byte) : (f.append c b).body.wf := by
  simp only [Framer.append]
  split
  · exact Memory.write_wf h _ _
  · exact h

theorem Framer.append_body_below {c : Config} {f : Framer} (h : f.body.below c.bodyMax) (b : Byte) :
    (f.append c b).body.below c.bodyMax := by
  simp only [Framer.append]
  split
  · exact Memory.write_below h (by assumption) _
  · exact h

/-- A data byte in `AB` keeps the framer invariants (42_framer.md R145, R146). -/
theorem Framer.collect_ok {c : Config} (hc : c.wf) {f : Framer} (h : f.ok c) (hab : f.fst = .ab) (b : Byte) :
    (f.collect c b).ok c := by
  obtain ⟨-, hcmd, hwidth, hlen, -, hw, hb⟩ := h
  have hl := Framer.append_len hc f b
  have h3 : ∀ v : Byte, v = 0x03#8 ↔ v.toNat = 3 := fun v => by
    constructor
    · rintro rfl; rfl
    · intro e; exact BitVec.eq_of_toNat_eq e
  have hfst : (f.append c b).fst = .ab := hab
  have hcm : (f.append c b).cmd = f.cmd := rfl
  have hwd : (f.append c b).width = f.width := rfl
  unfold Framer.collect
  simp only []
  split
  · rename_i hg
    have hg2 := (h3 _).mp hg.2
    refine ⟨?_, ?_, rfl, ?_, ?_, Framer.append_body_wf hw b, Framer.append_body_below hb b⟩
    · simp [Framer.lookup, hfst]
    · simp only [Framer.lookup, ne_eq, lookupCmd_ne_none, not_false_eq_true, true_iff]
      exact ⟨hg.1, by omega⟩
    · simp only [Framer.lookup]; omega
    · simp [Framer.lookup, hfst]
  · rename_i hg
    rw [h3] at hg
    refine ⟨?_, ?_, ?_, ?_, ?_, Framer.append_body_wf hw b, Framer.append_body_below hb b⟩
    · simp [hfst]
    · rw [hcm, hcmd]
      have := hc.2.2.1
      constructor
      · rintro ⟨hA, hge⟩
        have := this hA
        exact ⟨hA, by omega⟩
      · rintro ⟨hA, hge⟩
        have := this hA
        refine ⟨hA, ?_⟩
        by_contra hlt
        exact hg ⟨hA, by omega⟩
    · rw [hwd, hcm, hwidth]
    · omega
    · simp [hfst]

/-- Closing a frame whose check holds keeps the framer invariants (42_framer.md R143, R147, R148). -/
theorem Framer.close_ok {c : Config} (hc : c.wf) {f : Framer} (h : f.ok c) (hok : frameOK c f = true) :
    Framer.ok c { f with fst := .ad } := by
  obtain ⟨-, hcmd, hwidth, hlen, -, hw, hb⟩ := h
  refine ⟨by simp, hcmd, hwidth, hlen, fun _ => ⟨?_, hok⟩, hw, hb⟩
  unfold frameOK at hok
  split at hok
  · rename_i hA
    have := hc.2.2.1 hA
    simp only [hwidth, Bool.and_eq_true, decide_eq_true_eq, beq_iff_eq] at hok
    have hbound : f.cmd.width.toInt ≤ 4 := by cases f.cmd <;> decide
    show f.bodyLen.toNat ≤ c.bodyMax
    omega
  · simpa using hok

end Sys2Proof.Machine
end

