-- ==== Sys2Proof/Laws/PerInstr.lean ====
section
/-! SUPPORT. A statement made of every instruction: its encoding is the row of spec/opcode_table.json it stands for,
match under mask. -/

namespace Sys2Proof.Laws

/-- The row of spec/opcode_table.json: how many bits, `match` and `mask`. -/
def tableRow : Instr → Nat × Nat × Nat
  | .nop => (16, 0x0000, 0xFFFF)
  | .pushRx _ => (16, 0x1000, 0xFF00)
  | .pushTx _ => (16, 0x1100, 0xFF00)
  | .popRx => (16, 0x2000, 0xFFFF)
  | .popTx => (16, 0x2100, 0xFFFF)
  | .emptyRx => (16, 0x3000, 0xFFFF)
  | .emptyTx => (16, 0x3100, 0xFFFF)
  | .frStep => (16, 0x4000, 0xFFFF)
  | .frAck => (16, 0x5000, 0xFFFF)
  | .frBody _ => (16, 0x6000, 0xFF00)
  | .txReady => (16, 0x7000, 0xFFFF)
  | .pump => (16, 0x8000, 0xFFFF)
  | .ieWrite _ => (16, 0x9000, 0xFFFC)
  | .clrStatus _ => (16, 0xA000, 0xFFE0)
  | .rdReg _ => (16, 0xB000, 0xFFF0)
  | .headerA => (8, 0x24, 0xFF)
  | .endA => (8, 0x23, 0xFF)
  | .headerB => (8, 0x00, 0xFF)
  | .endB => (8, 0xFF, 0xFF)
  | .mnemGoo => (24, 0x474F4F, 0xFFFFFF)
  | .mnemEnd => (24, 0x454E44, 0xFFFFFF)
  | .mnemSpd => (24, 0x535044, 0xFFFFFF)
  | .mnemAlt => (24, 0x414C54, 0xFFFFFF)
  | .mnemMan => (24, 0x4D414E, 0xFFFFFF)
  | .mnemLed => (24, 0x4C4544, 0xFFFFFF)

/-- The bits of an encoding: how many, and their number. -/
def encodingBits : Encoding → Nat × Nat
  | .op w => (16, w.toNat)
  | .wire b => (8, b.toNat)
  | .mnemonic p => (24, p.toNat)

/-- The encoding has the row's number of bits, and the row's match under the row's mask. -/
def EncodingRow.Statement (i : Instr) : Prop :=
  (encodingBits (encode i)).1 = (tableRow i).1 ∧ (encodingBits (encode i)).2 &&& (tableRow i).2.2 = (tableRow i).2.1

theorem EncodingRow.nop : EncodingRow.Statement .nop := by unfold Statement; decide
theorem EncodingRow.pushRx (b : Byte) : EncodingRow.Statement (.pushRx b) := by unfold Statement; revert b; decide
theorem EncodingRow.pushTx (b : Byte) : EncodingRow.Statement (.pushTx b) := by unfold Statement; revert b; decide
theorem EncodingRow.popRx : EncodingRow.Statement .popRx := by unfold Statement; decide
theorem EncodingRow.popTx : EncodingRow.Statement .popTx := by unfold Statement; decide
theorem EncodingRow.emptyRx : EncodingRow.Statement .emptyRx := by unfold Statement; decide
theorem EncodingRow.emptyTx : EncodingRow.Statement .emptyTx := by unfold Statement; decide
theorem EncodingRow.frStep : EncodingRow.Statement .frStep := by unfold Statement; decide
theorem EncodingRow.frAck : EncodingRow.Statement .frAck := by unfold Statement; decide
theorem EncodingRow.frBody (k : Byte) : EncodingRow.Statement (.frBody k) := by unfold Statement; revert k; decide
theorem EncodingRow.txReady : EncodingRow.Statement .txReady := by unfold Statement; decide
theorem EncodingRow.pump : EncodingRow.Statement .pump := by unfold Statement; decide
theorem EncodingRow.ieWrite (v : BitVec 2) : EncodingRow.Statement (.ieWrite v) := by
  unfold Statement; revert v; decide
theorem EncodingRow.clrStatus (m : BitVec 5) : EncodingRow.Statement (.clrStatus m) := by
  unfold Statement; revert m; decide
theorem EncodingRow.rdReg (r : BitVec 4) : EncodingRow.Statement (.rdReg r) := by unfold Statement; revert r; decide
theorem EncodingRow.headerA : EncodingRow.Statement .headerA := by unfold Statement; decide
theorem EncodingRow.endA : EncodingRow.Statement .endA := by unfold Statement; decide
theorem EncodingRow.headerB : EncodingRow.Statement .headerB := by unfold Statement; decide
theorem EncodingRow.endB : EncodingRow.Statement .endB := by unfold Statement; decide
theorem EncodingRow.mnemGoo : EncodingRow.Statement .mnemGoo := by unfold Statement; decide
theorem EncodingRow.mnemEnd : EncodingRow.Statement .mnemEnd := by unfold Statement; decide
theorem EncodingRow.mnemSpd : EncodingRow.Statement .mnemSpd := by unfold Statement; decide
theorem EncodingRow.mnemAlt : EncodingRow.Statement .mnemAlt := by unfold Statement; decide
theorem EncodingRow.mnemMan : EncodingRow.Statement .mnemMan := by unfold Statement; decide
theorem EncodingRow.mnemLed : EncodingRow.Statement .mnemLed := by unfold Statement; decide

end Sys2Proof.Laws
end

