-- ==== Sys2Proof/Laws/Step.lean ====
section
/-! SUPPORT. What a step can be, said once: every kind of turn and what it comes to. -/

namespace Sys2Proof.Machine

theorem pushRxWord_fields (b : Byte) : fieldOp (pushRxWord b) = 0x1#4 ∧ fieldX (pushRxWord b) = 0#4 := by
  revert b; decide

theorem decodeOp_pushRxWord (b : Byte) : decodeOp (pushRxWord b) = .ok (.pushRx b) := by
  revert b; decide

/-- An agent has no step after a refusal (10_state.md R51). -/
theorem refused_of_enabled {a : Agent} {s : State} (h : enabled a s = true) : s.refused = none := by
  unfold enabled at h
  cases hr : s.refused with
  | none => rfl
  | some why => simp [hr] at h

/-- An agent without a step is held. -/
theorem issueFor_of_disabled {a : Agent} {s : State} {w : OpWord} (hr : s.refused = none) (h : enabled a s = false) :
    issueFor a w s = .held s := by
  unfold issueFor
  split
  · simp_all
  · simp [h]

/-- An agent with a step issues the word; RXI's own word is `issueFor_receive`. -/
theorem issueFor_of_enabled {a : Agent} {s : State} {w : OpWord} (h : enabled a s = true)
    (hw : a = .rxi → ¬(fieldOp w = 0x1#4 ∧ fieldX w = 0#4)) : issueFor a w s = .word w (s.issuing a s.rxline) := by
  unfold issueFor
  split
  · simp_all [refused_of_enabled h]
  · cases a with
    | main => simp [h]
    | txi => simp [h]
    | rxi =>
      cases hl : s.rxline with
      | nil => simp [enabled, hl] at h
      | cons b rest =>
        have hne : w ≠ pushRxWord b := by
          rintro rfl
          exact hw rfl (pushRxWord_fields b)
        simp only [h, Bool.not_true, Bool.false_eq_true, if_false]
        rw [if_neg hne, if_neg (hw rfl)]

/-- RXI's own word takes the head of `RXLINE` (41_transport.md R120). -/
theorem issueFor_receive {s : State} {b : Byte} {line : List Byte} (h : enabled .rxi s = true)
    (hl : s.rxline = b :: line) : issueFor .rxi (pushRxWord b) s = .word (pushRxWord b) (s.issuing .rxi line) := by
  unfold issueFor
  split
  · simp_all [refused_of_enabled h]
  · simp [h, hl]

/-- What issuing for an agent comes to, in every case (10_state.md R50, R51). -/
theorem issueFor_cases (a : Agent) (w : OpWord) (s : State) :
    (∃ why, s.refused = some why ∧ issueFor a w s = .stopped why) ∨
    (s.refused = none ∧ enabled a s = false ∧ issueFor a w s = .held s) ∨
    (s.refused = none ∧ enabled a s = true ∧ a = .rxi ∧ ∃ b rest, s.rxline = b :: rest ∧ w = pushRxWord b ∧
      issueFor a w s = .word w (s.issuing .rxi rest)) ∨
    (s.refused = none ∧ enabled a s = true ∧ a = .rxi ∧
      issueFor a w s = .misissued (s.issuing .rxi s.rxline)) ∨
    (s.refused = none ∧ enabled a s = true ∧ (a = .rxi → ¬(fieldOp w = 0x1#4 ∧ fieldX w = 0#4)) ∧
      issueFor a w s = .word w (s.issuing a s.rxline)) := by
  unfold issueFor
  cases hr : s.refused with
  | some why => exact .inl ⟨why, by trivial, rfl⟩
  | none =>
    cases he : enabled a s with
    | false => exact .inr (.inl ⟨by trivial, by trivial, rfl⟩)
    | true =>
      cases a with
      | main => exact .inr (.inr (.inr (.inr ⟨by trivial, by trivial, by simp, rfl⟩)))
      | txi => exact .inr (.inr (.inr (.inr ⟨by trivial, by trivial, by simp, rfl⟩)))
      | rxi =>
        cases hl : s.rxline with
        | nil => simp [enabled, hl] at he
        | cons b rest =>
          simp only [Bool.not_true, Bool.false_eq_true, if_false]
          split
          · exact .inr (.inr (.inl ⟨by trivial, by trivial, by trivial, b, rest, by trivial, by assumption, rfl⟩))
          · split
            · exact .inr (.inr (.inr (.inl ⟨by trivial, by trivial, by trivial, rfl⟩)))
            · exact .inr (.inr (.inr (.inr ⟨by trivial, by trivial, fun _ => by assumption, rfl⟩)))

/-- The agent and the word of a turn that is an agent's. -/
def Turn.asIssue (s : State) : Turn → Option (Agent × OpWord)
  | .issue a w => some (a, w)
  | .receive => some (.rxi, pushRxWord (s.rxline.headD 0x00#8))
  | .transmitReady => some (.txi, txReadyWord)
  | .reset => none

/-- A step that is an agent's turn. -/
theorem step_agent_turn {s : State} {t : Turn} {rest : List Turn} {a : Agent} {w : OpWord}
    (ht : s.turns = t :: rest) (ha : t.asIssue s = some (a, w)) :
    step s = perform (issueFor a w (s.withTurns rest)) s := by
  unfold step fetch
  rw [ht]
  cases t <;> simp_all [Turn.asIssue]

/-- Every next state of a step: no turn was left; the block was reset; an agent without a step was held; RXI issued a
byte that is not its own; or an enabled agent issued a word, RXI's own byte leaving `RXLINE`. -/
theorem step_next {s t : State} (h : step s = .next t) :
    (s.turns = [] ∧ t = s) ∨
    (∃ rest, s.turns = .reset :: rest ∧ t = (s.withTurns rest).blockReset) ∨
    (∃ tn rest a w, s.turns = tn :: rest ∧ tn.asIssue s = some (a, w) ∧ s.refused = none ∧
      ((enabled a s = false ∧ t = (s.withTurns rest)) ∨
       (enabled a s = true ∧ a = .rxi ∧ t = ((s.withTurns rest).issuing .rxi s.rxline).refuse .wrongAgent) ∨
       (enabled a s = true ∧ ∃ line, (line = s.rxline ∧ (a = .rxi → ¬(fieldOp w = 0x1#4 ∧ fieldX w = 0#4)) ∨
            (a = .rxi ∧ ∃ b, s.rxline = b :: line ∧ w = pushRxWord b)) ∧
          issueWord w ((s.withTurns rest).issuing a line) = .next t))) := by
  match ht : s.turns with
  | [] =>
    simp only [step, fetch, ht, perform] at h
    cases h
    exact .inl ⟨rfl, rfl⟩
  | .reset :: rest =>
    simp only [step, fetch, ht, perform] at h
    cases h
    exact .inr (.inl ⟨rest, rfl, rfl⟩)
  | .issue a w :: rest | .receive :: rest | .transmitReady :: rest =>
    refine .inr (.inr ⟨_, rest, _, _, rfl, rfl, ?_⟩)
    rw [step_agent_turn ht rfl] at h
    rcases issueFor_cases _ _ (s.withTurns rest) with ⟨why, -, e⟩ | ⟨hr, he, e⟩ | ⟨hr, he, ha, b, l, hl, hw, e⟩ |
      ⟨hr, he, ha, e⟩ | ⟨hr, he, hn, e⟩ <;> rw [e] at h
    · cases h
    · cases h; exact ⟨hr, .inl ⟨he, rfl⟩⟩
    · refine ⟨hr, .inr (.inr ⟨he, l, .inr ⟨ha, b, hl, hw⟩, ?_⟩)⟩
      rw [ha]
      exact h
    · cases h; exact ⟨hr, .inr (.inl ⟨he, ha, rfl⟩)⟩
    · exact ⟨hr, .inr (.inr ⟨he, s.rxline, .inl ⟨rfl, hn⟩, h⟩)⟩

/-- Only `PUSH_RX` is RXI's (10_state.md R50). -/
theorem agent_eq_rxi {i : Instr} (h : Instr.agent i = .rxi) : ∃ b, i = .pushRx b := by
  cases i <;> first | exact ⟨_, rfl⟩ | cases h

/-- Only `TX_READY` is TXI's (10_state.md R50). -/
theorem agent_eq_txi {i : Instr} (h : Instr.agent i = .txi) : i = .txReady := by
  cases i <;> first | rfl | cases h

/-- An agent's turn is a step of the agent's own if the word it issues is an operation permitted to it. -/
theorem takesStep_eq {a c : Agent} {t : Turn} {w : OpWord} {s : State} (ht : t.asIssue s = some (c, w)) :
    takesStep a t s = match issueFor c w (s.withTurns []) with
      | .word w s' => s'.agent == a && (match decodeOp w with | .ok i => Instr.agent i == a | .error _ => false)
      | _ => false := by
  cases t <;> simp_all [Turn.asIssue, takesStep, fetch] <;> rfl

/-- Everything a step of an agent's own is: the agent has a step, the turn is its, and the word is one it is permitted,
for RXI that of the head of `RXLINE` (10_state.md R50, R51). -/
theorem takesStep_elim {a : Agent} {t : Turn} {s : State} (h : takesStep a t s = true) :
    enabled a s = true ∧ ∃ w i, t.asIssue s = some (a, w) ∧ decodeOp w = .ok i ∧ Instr.agent i = a ∧
      (a = .rxi → ∃ b line, s.rxline = b :: line ∧ w = pushRxWord b) := by
  cases ht : t.asIssue s with
  | none => cases t <;> simp_all [Turn.asIssue, takesStep, fetch]
  | some p =>
    obtain ⟨c, w⟩ := p
    rw [takesStep_eq ht] at h
    rcases issueFor_cases c w (s.withTurns []) with ⟨why, -, e⟩ | ⟨-, -, e⟩ | ⟨-, he, hc, b, l, hl, hw, e⟩ |
      ⟨-, -, -, e⟩ | ⟨-, he, hn, e⟩ <;> rw [e] at h <;> simp only [Bool.false_eq_true] at h
    · subst hc hw
      simp [decodeOp_pushRxWord, Instr.agent] at h
      subst h
      exact ⟨he, _, _, rfl, decodeOp_pushRxWord b, rfl, fun _ => ⟨b, l, hl, rfl⟩⟩
    · cases hd : decodeOp w with
      | error er => simp [hd] at h
      | ok i =>
        simp [hd] at h
        obtain ⟨rfl, hi⟩ := h
        refine ⟨he, w, i, rfl, hd, hi, ?_⟩
        intro hc
        rw [hc] at hi
        obtain ⟨b, rfl⟩ := agent_eq_rxi hi
        exact absurd (decodeOp_pushRx_fields hd) (hn hc)

/-- The turns that are RXI's own step: its event, in both spellings (41_transport.md R120). -/
theorem takesStep_rxi_iff {t : Turn} {s : State} :
    takesStep .rxi t s = true ↔
      enabled .rxi s = true ∧ ∃ b line, s.rxline = b :: line ∧ (t = .receive ∨ t = .issue .rxi (pushRxWord b)) := by
  constructor
  · intro h
    obtain ⟨he, w, i, ht, -, -, hw⟩ := takesStep_elim h
    obtain ⟨b, line, hl, rfl⟩ := hw rfl
    refine ⟨he, b, line, hl, ?_⟩
    cases t <;> simp_all [Turn.asIssue]
  · rintro ⟨he, b, line, hl, ht⟩
    have hi : t.asIssue s = some (.rxi, pushRxWord b) := by rcases ht with rfl | rfl <;> simp [Turn.asIssue, hl]
    rw [takesStep_eq hi, issueFor_receive (s := s.withTurns []) he hl]
    simp [decodeOp_pushRxWord, Instr.agent]

/-- The turns that are TXI's own step: its event, in both spellings (41_transport.md R122). -/
theorem takesStep_txi_iff {t : Turn} {s : State} :
    takesStep .txi t s = true ↔
      enabled .txi s = true ∧ (t = .transmitReady ∨ t = .issue .txi txReadyWord) := by
  constructor
  · intro h
    obtain ⟨he, w, i, ht, hd, hi, -⟩ := takesStep_elim h
    rw [agent_eq_txi hi] at hd
    have hw : w = txReadyWord := decodeOp_txReady_word hd
    refine ⟨he, ?_⟩
    cases t <;> simp_all [Turn.asIssue]
  · rintro ⟨he, ht⟩
    have hi : t.asIssue s = some (.txi, txReadyWord) := by rcases ht with rfl | rfl <;> rfl
    rw [takesStep_eq hi, issueFor_of_enabled (s := s.withTurns []) he (by simp)]
    rfl

/-- One more turn of a schedule. -/
theorem runSchedule_succ {sched : Nat → Turn} {s t u : State} {k : Nat} (h : runSchedule sched s k = some t)
    (hs : step (t.withTurns [sched k]) = .next u) : runSchedule sched s (k + 1) = some u := by
  unfold State.withTurns at hs
  simp only [runSchedule, h, hs]

/-- A schedule whose every turn is the agent's own step wherever it has one is fair to it (70_reset_and_hazards.md
R254). -/
theorem weaklyFair_of_always {sched : Nat → Turn} {s : State} {a : Agent}
    (h : ∀ j s', enabled a s' = true → takesStep a (sched j) s' = true) : WeaklyFair sched s a := by
  intro k hk
  obtain ⟨s', hs, he⟩ := hk k (Nat.le_refl k)
  exact ⟨k, s', Nat.le_refl k, hs, h k s' he⟩

end Sys2Proof.Machine
end

