-- ==== Sys2Proof/Tests/Slice0.lean ====
section
/-! SUPPORT. The model's own tests: the checks of WellFormed refuse what is ill formed; every row of the opcode table is
decoded from bits written out from spec/30_encoding.md; single steps against the vectors of spec/95_test_vectors.md
(the vector is named at each test); and for each obligation with hypotheses a state and operands that meet them. -/

namespace Sys2Proof.Tests

open Sys2Proof Sys2Proof.Machine

/-! ### Helpers -/

/-- The next state of an answer that is one. -/
def after (o : Answer State) : Option State :=
  match o with
  | .next s => some s
  | .fault _ => none
  | .refused _ => none

/-- A field of the next state. -/
def got {α : Type} (o : Answer State) (f : State → α) : Option α := (after o).map f

/-- The state right after reset of a build of the grammar, the agent executing. -/
def base (g : Grammar) (a : Agent) : State := { State.resetFor (Config.build g) [] with agent := a }

/-- A ring of capacity 128 holding these bytes, none of them 0x00, from slot 0 on. -/
def holding (bs : List Byte) : Ring :=
  { mem := (List.range bs.length).zip bs, wr := bs.length, rd := 0, full := false }

/-- `q{WR, RD, 1; …}` of capacity 4 with these four bytes in its slots. -/
def full4 (b0 b1 b2 b3 : Byte) (i : Nat) : Ring :=
  { mem := [(0, b0), (1, b1), (2, b2), (3, b3)], wr := i, rd := i, full := true }

/-- A build with rings of four bytes. -/
def small (s : State) : State := { s with cfg := { s.cfg with n := 4 } }

/-- MAIN of Grammar A with these bytes in `RX` and this framer state. -/
def receiving (bs : List Byte) (f : Framer) : State := { base .A .main with rx := holding bs, fr := f }

/-- A framer in `AB`. -/
def inBody (body : List Byte) (c : Cmd) : Framer :=
  { fst := .ab, body := (List.range body.length).zip body, bodyLen := BitVec.ofNat 8 body.length, cmd := c, width := c.width }

/-- The body `GOO0032`. -/
def gooBody : List Byte := [0x47#8, 0x4F#8, 0x4F#8, 0x30#8, 0x30#8, 0x33#8, 0x32#8]

/-- The framer in `AD` after L2-F5. -/
def gooDone : Framer := { inBody gooBody .goo with fst := .ad }

/-- MAIN issues this word next. -/
def issuing (w : OpWord) (s : State) : State := { s with turns := [.issue .main w] }

/-! ### WellFormed: an ill-formed term for each check -/

theorem test_operands_too_wide_are_refused :
    AsmLine.wellFormed (.pushRx 256) = false ∧ AsmLine.wellFormed (.pushTx 256) = false ∧
    AsmLine.wellFormed (.frBody 256) = false ∧ AsmLine.wellFormed (.ieWrite 4) = false ∧
    AsmLine.wellFormed (.clrStatus 32) = false ∧ AsmLine.wellFormed (.rdReg 16) = false := by decide

theorem test_operands_at_their_bounds_are_accepted :
    AsmLine.wellFormed (.pushRx 255) = true ∧ AsmLine.wellFormed (.pushTx 255) = true ∧
    AsmLine.wellFormed (.frBody 255) = true ∧ AsmLine.wellFormed (.ieWrite 3) = true ∧
    AsmLine.wellFormed (.clrStatus 31) = true ∧ AsmLine.wellFormed (.rdReg 15) = true := by decide

/-- 43_tx_frame_pump.md R172: no expansion of a width of 3. -/
theorem test_frame_width_is_checked :
    AsmLine.wellFormed (.frameTxA 0x44#8 0x53#8 0x54#8 125 3) = false ∧
    assemble .A (.frameTxA 0x44#8 0x53#8 0x54#8 125 3) = none ∧
    assemble .A (.pushTx 256) = none := by decide

/-- 00_scope.md R7: the bounds of N and BODY_MAX. -/
theorem test_bad_builds_are_refused :
    ¬Config.wf { Config.build .A with n := 0 } ∧ ¬Config.wf { Config.build .A with n := 256 } ∧
    ¬Config.wf { Config.build .A with bodyMax := 6 } ∧ ¬Config.wf { Config.build .B with bodyMax := 255 } ∧
    Config.wf (Config.build .A) ∧ Config.wf (Config.build .B) := by decide

/-! ### Decoding: bits written out from 30_encoding.md R81, R82, R86, R87 -/

theorem test_decode_ring_words :
    decodeTableWord 16 0b0001000000100100 = some (.pushRx 0x24#8) ∧
    decodeTableWord 16 0b0001000100100011 = some (.pushTx 0x23#8) ∧
    decodeTableWord 16 0b0010000000000000 = some .popRx ∧
    decodeTableWord 16 0b0010000100000000 = some .popTx ∧
    decodeTableWord 16 0b0011000000000000 = some .emptyRx ∧
    decodeTableWord 16 0b0011000100000000 = some .emptyTx := by decide

theorem test_decode_framer_words :
    decodeTableWord 16 0b0100000000000000 = some .frStep ∧
    decodeTableWord 16 0b0101000000000000 = some .frAck ∧
    decodeTableWord 16 0b0110000010000001 = some (.frBody 0x81#8) := by decide

theorem test_decode_transmit_words :
    decodeTableWord 16 0b0111000000000000 = some .txReady ∧
    decodeTableWord 16 0b1000000000000000 = some .pump := by decide

theorem test_decode_control_words :
    decodeTableWord 16 0b0000000000000000 = some .nop ∧
    decodeTableWord 16 0b1001000000000010 = some (.ieWrite 0b10#2) ∧
    decodeTableWord 16 0b1010000000010001 = some (.clrStatus 0b10001#5) ∧
    decodeTableWord 16 0b1011000000001101 = some (.rdReg 0b1101#4) := by decide

theorem test_decode_marker_bytes :
    decodeTableWord 8 0b00100100 = some .headerA ∧
    decodeTableWord 8 0b00100011 = some .endA ∧
    decodeTableWord 8 0b00000000 = some .headerB ∧
    decodeTableWord 8 0b11111111 = some .endB ∧
    decodeTableWord 8 0b01000111 = none := by decide

/-- The ASCII codes `G` 0x47, `O` 0x4F and so on, the first body byte in bits 23:16. -/
theorem test_decode_mnemonics :
    decodeTableWord 24 0b010001110100111101001111 = some .mnemGoo ∧
    decodeTableWord 24 0b010001010100111001000100 = some .mnemEnd ∧
    decodeTableWord 24 0b010100110101000001000100 = some .mnemSpd ∧
    decodeTableWord 24 0b010000010100110001010100 = some .mnemAlt ∧
    decodeTableWord 24 0b010011010100000101001110 = some .mnemMan ∧
    decodeTableWord 24 0b010011000100010101000100 = some .mnemLed ∧
    decodeTableWord 24 0b010001000101001101010100 = none := by decide

/-- L2-E5 to L2-E9. -/
theorem test_decode_reserved_words :
    decodeTableWord 16 0x2001 = none ∧ decodeTableWord 16 0x1200 = none ∧ decodeTableWord 16 0x9004 = none ∧
    decodeTableWord 16 0xA020 = none ∧ decodeTableWord 16 0xC000 = none ∧ decodeTableWord 16 0xFFFF = none ∧
    decodeTableWord 16 0xB010 = none ∧ decodeTableWord 32 0 = none := by decide

/-! ### Ring operations -/

/-- L2-R2: the fourth byte of four wraps `WR` to `RD` and sets `FULL`, without an event. -/
theorem test_push_rx_fills_the_ring :
    got (exec (.pushRx 0x64#8) { small (base .A .rxi) with rx := holding [0x61#8, 0x62#8, 0x63#8] })
      (fun s => (s.rx.wr, s.rx.rd, s.rx.full, s.rx.unread 4, s.evh)) =
    some (0, 0, true, [0x61#8, 0x62#8, 0x63#8, 0x64#8], []) := by decide

/-- L2-R4: a push on a full ring loses the oldest byte and sets `RX_OVF`. -/
theorem test_push_rx_overflows :
    got (exec (.pushRx 0x74#8) { small (base .A .rxi) with rx := full4 0x73#8 0x70#8 0x71#8 0x72#8 1 })
      (fun s => (s.rx.wr, s.rx.rd, s.rx.unread 4, s.status, s.evh)) =
    some (2, 2, [0x71#8, 0x72#8, 0x73#8, 0x74#8], 0b00001#5, [⟨.overflow .rx 0x70#8 0x74#8, .rxi⟩]) := by decide

/-- L2-R3, L1-2. -/
theorem test_push_tx_overflows :
    got (exec (.pushTx 0x45#8) { small (base .A .main) with tx := full4 0x43#8 0x44#8 0x41#8 0x42#8 2 })
      (fun s => (s.tx.wr, s.tx.rd, s.tx.unread 4, s.status, s.evh)) =
    some (3, 3, [0x42#8, 0x43#8, 0x44#8, 0x45#8], 0b00100#5, [⟨.overflow .tx 0x41#8 0x45#8, .main⟩]) := by decide

/-- L2-R5: with N = 1 the first push fills the ring. -/
theorem test_push_tx_of_one_slot :
    got (exec (.pushTx 0x11#8) { base .A .main with cfg := { Config.build .A with n := 1 } })
      (fun s => (s.tx.wr, s.tx.rd, s.tx.full, s.result)) = some (0, 0, true, some 0x00#8) := by decide

/-- L2-R9: the framer does not see the byte. -/
theorem test_pop_rx_takes_the_byte :
    got (exec .popRx { base .A .main with rx := holding [0x24#8] }) (fun s => (s.result, s.rx.wr, s.rx.rd, s.fr.fst)) =
    some (some 0x24#8, 1, 1, .ah) := by decide

/-- L2-R7, L1-3. -/
theorem test_pop_rx_underflows :
    got (exec .popRx { base .A .main with rx := ⟨[], 5, 5, false⟩ })
      (fun s => (s.result, s.rx, s.status, s.evh)) =
    some (some 0x00#8, ⟨[], 5, 5, false⟩, 0b00010#5, [⟨.underflow .rx, .main⟩]) := by decide

/-- L2-R10: `TXD` is unchanged. -/
theorem test_pop_tx_emits_nothing :
    got (exec .popTx { base .A .main with tx := holding [0x24#8, 0x44#8] })
      (fun s => (s.result, s.tx.rd, s.txd)) = some (some 0x24#8, 1, []) := by decide

/-- L2-R8. -/
theorem test_pop_tx_underflows :
    got (exec .popTx { base .A .main with tx := ⟨[], 3, 3, false⟩ })
      (fun s => (s.result, s.status, s.evh)) = some (some 0x00#8, 0b01000#5, [⟨.underflow .tx, .main⟩]) := by decide

/-- L2-R11, L2-R13: an empty ring answers 1, a full one 0. -/
theorem test_empty_rx :
    got (exec .emptyRx (base .A .main)) State.result = some (some 0x01#8) ∧
    got (exec .emptyRx { small (base .A .main) with rx := full4 0x61#8 0x62#8 0x63#8 0x64#8 0 }) State.result =
      some (some 0x00#8) := by decide

/-- L2-R11, and the same of `TX` with a byte in it. -/
theorem test_empty_tx :
    got (exec .emptyTx (base .A .main)) State.result = some (some 0x01#8) ∧
    got (exec .emptyTx { base .A .main with tx := holding [0x24#8] }) State.result = some (some 0x00#8) := by decide

/-! ### Transmission -/

/-- L2-T3. -/
theorem test_tx_ready_sends :
    got (exec .txReady { base .A .txi with txie := true, txAct := true, tx := holding [0x23#8] })
      (fun s => (s.txd, s.tx.isEmpty, s.txAct)) = some ([0x23#8], true, true) := by decide

/-- L2-T4. -/
theorem test_tx_ready_idles :
    got (exec .txReady { base .A .txi with txie := true, txAct := true }) (fun s => (s.txd, s.txAct, s.evh)) =
    some ([], false, []) := by decide

/-- L2-P1. -/
theorem test_pump_starts :
    got (exec .pump { base .A .main with tx := holding [0x24#8, 0x44#8] })
      (fun s => (s.result, s.txd, s.tx.unread 128, s.txAct)) = some (some 0x01#8, [0x24#8], [0x44#8], true) := by decide

/-- L2-P2, L2-P3. -/
theorem test_pump_does_nothing :
    got (exec .pump { base .A .main with tx := holding [0x44#8], txAct := true })
      (fun s => (s.result, s.txd, s.tx.rd)) = some (some 0x00#8, [], 0) ∧
    got (exec .pump (base .A .main)) (fun s => (s.result, s.txAct, s.evh)) = some (some 0x00#8, false, []) := by decide

/-- L2-P8, L2-P9: the digits of a negative value and of one wider than its field. -/
theorem test_frame_bytes :
    frameBytes .A 0x50#8 0x52#8 0x53#8 (-1) 2 =
      some [0x24#8, 0x50#8, 0x52#8, 0x53#8, 0x66#8, 0x66#8, 0x23#8] ∧
    frameBytes .A 0x44#8 0x53#8 0x54#8 0x1ABCD 4 =
      some [0x24#8, 0x44#8, 0x53#8, 0x54#8, 0x61#8, 0x62#8, 0x63#8, 0x64#8, 0x23#8] := by decide

/-! ### The framer -/

/-- L2-F5, its last step: the end marker closes a frame of the right length. -/
theorem test_fr_step_closes :
    got (exec .frStep (receiving [0x23#8] (inBody gooBody .goo)))
      (fun s => (s.result, s.fr.fst, s.fr.bodyLen, s.fr.cmd, s.evh)) =
      some (some 0x05#8, .ad, 0x07#8, .goo, []) := by decide

/-- L2-F12, its last step: it rejects one of a wrong length. -/
theorem test_fr_step_rejects :
    got (exec .frStep (receiving [0x23#8] (inBody [0x4D#8, 0x41#8, 0x4E#8, 0x31#8, 0x32#8, 0x33#8] .man)))
      (fun s => (s.result, s.fr.fst, s.fr.bodyLen, s.status, s.evh)) =
      some (some 0x03#8, .ah, 0x00#8, 0b10000#5, [⟨.framingLength 0x06#8 .man, .main⟩]) := by decide

/-- L2-F4 at its third body byte, L2-F22 at its second `$`, L2-F27. -/
theorem test_fr_step_in_a_body :
    got (exec .frStep (receiving [0x4F#8] (inBody [0x47#8, 0x4F#8] .none)))
      (fun s => (s.result, s.fr.bodyLen, s.fr.cmd, s.fr.width)) = some (some 0x01#8, 0x03#8, .goo, 0x04#8) ∧
    got (exec .frStep (receiving [0x24#8] (inBody [0x47#8, 0x4F#8] .none)))
      (fun s => (s.result, s.fr.fst, s.fr.bodyLen, s.evh)) =
      some (some 0x03#8, .ab, 0x00#8, [⟨.framingRestart 0x02#8, .main⟩]) ∧
    got (exec .frStep (base .A .main)) (fun s => (s.result, s.evh)) = some (some 0x00#8, []) := by decide

/-- L2-F29, L2-F30. -/
theorem test_fr_ack :
    got (exec .frAck (receiving [] gooDone)) (fun s => (s.result, s.fr.fst, s.fr.bodyLen, s.fr.width)) =
      some (some 0x01#8, .ah, 0x00#8, 0xFF#8) ∧
    got (exec .frAck (receiving [] (inBody [0x47#8, 0x4F#8] .none))) (fun s => (s.result, s.fr.fst, s.fr.bodyLen)) =
      some (some 0x00#8, .ab, 0x02#8) := by decide

/-- L2-F28, L2-F31. -/
theorem test_fr_body :
    got (exec (.frBody 6#8) (receiving [] gooDone)) State.result = some (some 0x32#8) ∧
    got (exec (.frBody 7#8) (receiving [] gooDone)) State.result = some (some 0x00#8) ∧
    got (exec (.frBody 1#8) (receiving [] (inBody [0x47#8, 0x4F#8] .none))) State.result = some (some 0x4F#8) := by decide

/-- L2-F2: `$` opens a frame of Grammar A; 30_encoding.md R86: it is a data byte of Grammar B. -/
theorem test_header_a :
    got (exec .headerA (base .A .main)) (fun s => (s.result, s.fr.fst)) = some (some 0x01#8, .ab) ∧
    got (exec .headerA { base .B .main with fr := inBody [] .none }) (fun s => (s.result, s.fr.bodyLen, s.evh)) =
      some (some 0x01#8, 0x01#8, []) := by decide

/-- L2-F18: `#` on an empty body is an error. L2-F1: in `AH` it is noise. -/
theorem test_end_a :
    got (exec .endA { base .A .main with fr := inBody [] .none }) (fun s => (s.result, s.evh)) =
      some (some 0x03#8, [⟨.framingLength 0x00#8 .none, .main⟩]) ∧
    got (exec .endA (base .A .main)) (fun s => (s.result, s.fr.fst, s.evh)) = some (some 0x01#8, .ah, []) := by decide

/-- L2-B6: 0x00 in a body restarts it. -/
theorem test_header_b :
    got (exec .headerB { base .B .main with fr := inBody [0x43#8] .none }) (fun s => (s.result, s.fr.bodyLen, s.evh)) =
      some (some 0x03#8, 0x00#8, [⟨.framingRestart 0x01#8, .main⟩]) := by decide

/-- L2-B1: an empty body is accepted. L2-B3: 0xFF before a header is noise. -/
theorem test_end_b :
    got (exec .endB { base .B .main with fr := inBody [] .none }) (fun s => (s.result, s.fr.fst)) =
      some (some 0x05#8, .ad) ∧
    got (exec .endB (base .B .main)) (fun s => (s.result, s.fr.fst)) = some (some 0x01#8, .ah) := by decide

/-- 30_encoding.md R87, with the widths of L2-F6 to L2-F10. -/
theorem test_mnemonics :
    got (exec .mnemGoo { base .A .main with fr := inBody [0x47#8, 0x4F#8, 0x4F#8] .undef })
      (fun s => (s.fr.cmd, s.fr.width)) = some (.goo, 0x04#8) ∧
    got (exec .mnemEnd { base .A .main with fr := inBody [0x45#8, 0x4E#8, 0x44#8] .undef })
      (fun s => (s.fr.cmd, s.fr.width)) = some (.cEnd, 0x00#8) ∧
    got (exec .mnemSpd { base .A .main with fr := inBody [0x53#8, 0x50#8, 0x44#8] .undef })
      (fun s => (s.fr.cmd, s.fr.width)) = some (.spd, 0x04#8) ∧
    got (exec .mnemAlt { base .A .main with fr := inBody [0x41#8, 0x4C#8, 0x54#8] .undef })
      (fun s => (s.fr.cmd, s.fr.width)) = some (.alt, 0x04#8) ∧
    got (exec .mnemMan { base .A .main with fr := inBody [0x4D#8, 0x41#8, 0x4E#8] .undef })
      (fun s => (s.fr.cmd, s.fr.width)) = some (.man, 0x02#8) ∧
    got (exec .mnemLed { base .A .main with fr := inBody [0x4C#8, 0x45#8, 0x44#8] .undef })
      (fun s => (s.fr.cmd, s.fr.width)) = some (.led, 0x02#8) := by decide

/-! ### Control operations -/

/-- L2-C1. -/
theorem test_nop : got (exec .nop (base .A .main)) (fun s => (s.result, s.status, s.fr.fst)) =
    some (some 0x00#8, 0#5, .ah) := by decide

/-- L2-C2: `TX_ACT` is not written. -/
theorem test_ie_write :
    got (exec (.ieWrite 0#2) { base .A .main with rxie := true, txie := true, txAct := true }) State.ctrlReg =
    some 0x04#8 := by decide

/-- L2-C4. -/
theorem test_clr_status :
    got (exec (.clrStatus 0x10#5) { base .A .main with status := 0x11#5 }) State.statusReg = some 0x01#8 := by decide

/-- L2-C6, the three registers that are not 0, and L2-C7. -/
theorem test_rd_reg_at_reset :
    got (exec (.rdReg 5#4) (base .A .main)) State.result = some (some 0xFF#8) ∧
    got (exec (.rdReg 14#4) (base .A .main)) State.result = some (some 0x80#8) ∧
    got (exec (.rdReg 12#4) (base .A .main)) State.result = some (some 0x00#8) ∧
    got (exec (.rdReg 13#4) (base .B .main)) State.result = some (some 0x01#8) := by decide

/-- L2-R14, L2-R15: the occupancy registers; L2-C10. -/
theorem test_rd_reg_counts :
    got (exec (.rdReg 6#4) { small (base .A .main) with rx := ⟨[], 1, 3, false⟩ }) State.result = some (some 0x02#8) ∧
    got (exec (.rdReg 6#4) { small (base .A .main) with rx := ⟨[], 2, 2, true⟩ }) State.result = some (some 0x04#8) ∧
    got (exec (.rdReg 15#4) (base .A .main)) (fun s => (s.result, s.refused)) =
      some (none, some .reservedRegister) := by decide

/-! ### Steps and placed words -/

/-- L2-T1. -/
theorem test_receive_event :
    got (step { base .A .main with rxie := true, rxline := [0x24#8, 0x45#8], turns := [.receive] })
      (fun s => (s.rxline, s.rx.unread 128, s.agent)) = some ([0x45#8], [0x24#8], .rxi) := by decide

/-- L2-E2, L2-E10, L2-E11. -/
theorem test_wrong_agent :
    got (step (issuing 0x1024#16 (base .A .main))) State.refused = some (some .wrongAgent) ∧
    got (step (issuing 0x7000#16 (base .A .main))) State.refused = some (some .wrongAgent) ∧
    got (step { base .A .main with txie := true, txAct := true, turns := [.issue .txi 0x4000#16] }) State.refused =
      some (some .wrongAgent) := by decide

/-- L2-E5, L2-E9. -/
theorem test_reserved_word :
    got (step (issuing 0x2001#16 (base .A .main))) State.refused = some (some .reservedEncoding) ∧
    got (step (issuing 0xFFFF#16 (base .A .main))) State.refused = some (some .reservedEncoding) := by decide

/-- Placed words of 16 bits run as the first instruction after reset (log 3). -/
theorem test_placed_words_run :
    got (step (State.reset.withFetchWord 16 0x1024)) (fun s => s.rx.unread 128) = some [0x24#8] ∧
    got (step (State.reset.withFetchWord 16 0x1123)) (fun s => s.tx.unread 128) = some [0x23#8] ∧
    got (step (State.reset.withFetchWord 16 0x7000)) (fun s => (s.agent, s.txAct)) = some (.txi, false) ∧
    got (step (State.reset.withFetchWord 16 0xB00E)) State.result = some (some 0x80#8) := by decide

/-- Placed wire bytes and mnemonics are met by an `FR_STEP` (log 3). -/
theorem test_placed_wire_bytes_run :
    got (step (State.reset.withFetchWord 8 0x24)) (fun s => s.fr.fst) = some .ab ∧
    got (step (State.reset.withFetchWord 8 0x00)) (fun s => (s.cfg.grammar, s.fr.fst)) = some (.B, .ab) ∧
    got (step (State.reset.withFetchWord 24 0x4C4544)) (fun s => (s.fr.cmd, s.fr.width)) = some (.led, 0x02#8) := by decide

/-! ### Hypotheses that are met -/

theorem reset_inv : State.reset.inv ∧ State.reset.eventsOk := by decide

theorem reset_storage_wf : State.reset.rx.mem.wf ∧ State.reset.tx.mem.wf ∧ State.reset.fr.body.wf := by decide

/-- A state in the middle of a run: a frame half received, an error behind it, output pending. -/
def midRun : State :=
  { receiving [0x23#8, 0x78#8] (inBody gooBody .goo) with
    tx := holding [0x24#8, 0x44#8]
    status := 0b10000#5
    txie := true
    txAct := true
    rxie := true
    evh := [⟨.framingRestart 0x02#8, .main⟩]
    rxline := [0x24#8, 0x45#8] }

/-- For the statements over every state with the invariants, and over every step: a framer step, a receive event, a
transmit event, a reset. -/
theorem witness_step_keeps_invariants :
    (∃ t, step (issuing 0x4000#16 midRun) = .next t) ∧ (issuing 0x4000#16 midRun).inv ∧
    (issuing 0x4000#16 midRun).eventsOk ∧
    (∃ t, step { midRun with turns := [.receive] } = .next t) ∧ State.inv { midRun with turns := [.receive] } ∧
    (∃ t, step { midRun with turns := [.transmitReady] } = .next t) ∧
    (∃ t, step { midRun with turns := [.reset] } = .next t) := by
  refine ⟨⟨_, rfl⟩, ?_, ?_, ⟨_, rfl⟩, ?_, ⟨_, rfl⟩, ⟨_, rfl⟩⟩ <;> decide

theorem witness_step_runs_the_issued_instruction :
    (issuing 0x4000#16 midRun).turns = [.issue .main 0x4000#16] ∧ enabled .main (issuing 0x4000#16 midRun) = true ∧
    decodeOp 0x4000#16 = .ok .frStep ∧ Agent.main ≠ .rxi := ⟨rfl, by decide, rfl, by decide⟩

/-- The receive event, RXI issuing the head of `RXLINE`, RXI issuing another byte, the transmit-ready event. -/
theorem witness_interrupt_events :
    (let s : State := { midRun with turns := [.receive] }
     s.refused = none ∧ s.turns = [.receive] ∧ s.rxie = true ∧ s.rxline = [0x24#8, 0x45#8]) ∧
    ({ midRun with turns := [.issue .rxi 0x1024#16] }).turns = [.issue .rxi (BitVec.ofNat 16 (0x1000 + (0x24#8).toNat))] ∧
    ({ midRun with turns := [.issue .rxi 0x1025#16] }).turns = [.issue .rxi (BitVec.ofNat 16 (0x1000 + (0x25#8).toNat))] ∧
    0x25#8 ≠ 0x24#8 ∧
    (let s : State := { midRun with turns := [.transmitReady] }
     s.refused = none ∧ s.turns = [.transmitReady] ∧ s.txie = true ∧ s.txAct = true) := by decide

/-- RXI issuing a byte that is not the head of `RXLINE` (log 13). -/
theorem test_rxi_pushes_only_the_head :
    got (step { midRun with turns := [.issue .rxi 0x1025#16] }) (fun s => (s.refused, s.rxline)) =
      some (some .wrongAgent, [0x24#8, 0x45#8]) ∧
    got (step { midRun with turns := [.issue .rxi 0x1024#16] }) (fun s => (s.refused, s.rxline)) =
      some (none, [0x45#8]) := by decide

/-- Each reason to have no step, for an event's turn and for a turn in which the agent issues a word. -/
theorem witness_disabled_agents :
    ({ midRun with rxie := false, turns := [.receive] }).rxie = false ∧
    ({ midRun with rxline := [], turns := [.issue .rxi 0xC000#16] }).rxline = [] ∧
    ({ midRun with txie := false, turns := [.transmitReady] }).txie = false ∧
    ({ midRun with txAct := false, turns := [.issue .txi 0x7000#16] }).txAct = false ∧ midRun.refused = none := by decide

theorem witness_reserved_word :
    enabled .main (issuing 0xC000#16 midRun) = true ∧ (decodeOp 0xC000#16).toOption = none ∧
    enabled .txi { midRun with turns := [.issue .txi 0x7001#16] } = true ∧ (decodeOp 0x7001#16).toOption = none := by
  decide

theorem witness_wrong_agent : (base .A .rxi).agent ≠ .main ∧ (base .A .main).agent ≠ .rxi ∧ (base .A .rxi).agent ≠ .txi := by
  decide

theorem witness_refused_run :
    ({ midRun with refused := some .wrongAgent, turns := [.receive] }).refused = some .wrongAgent ∧
    Turn.receive ≠ .reset := by decide

/-- A step that answers a next state with REFUSED set before it: a reset. -/
theorem witness_refused_is_kept :
    ∃ t, step { midRun with refused := some .wrongAgent, turns := [.reset] } = .next t ∧
      t.refused = some .wrongAgent := ⟨_, rfl, rfl⟩

/-- Bits of each kind that decode. -/
theorem witness_spelled_bits :
    decode (.op 0x9003#16) = .ok (.ieWrite 3#2) ∧ decode (.wire 0xFF#8) = .ok .endB ∧
    decode (.mnemonic 0x4D414E#24) = .ok .mnemMan := ⟨rfl, rfl, rfl⟩

/-- One word of each kind of placing. -/
theorem witness_placed_words :
    decodeOp 0x1024#16 = .ok (.pushRx 0x24#8) ∧ decodeOp 0x7000#16 = .ok .txReady ∧
    decodeOp 0x4000#16 = .ok .frStep := ⟨rfl, rfl, rfl⟩

/-- Builds at the bounds of 00_scope.md R7. -/
theorem witness_builds :
    Config.wf { n := 1, grammar := .A, bodyMax := 7, staleEmpty := true } ∧
    Config.wf { n := 255, grammar := .B, bodyMax := 254, staleEmpty := false } ∧
    Config.wf { n := 1, grammar := .B, bodyMax := 0, staleEmpty := false } := by decide

theorem witness_main_executes : midRun.agent = .main ∧ midRun.inv ∧ (14#4 : BitVec 4) ≠ 15#4 ∧ (0#4 : BitVec 4) ≠ 15#4 := by
  decide

theorem witness_critical_section :
    ∃ t, exec (.rdReg 1#4) midRun = .next t ∧ t.result = some 0x07#8 := ⟨_, rfl, by decide⟩

/-- Rings with room, full, of one slot, and at the last index. -/
theorem witness_pushes :
    (base .A .rxi).agent = .rxi ∧ (base .A .rxi).rx.ok 128 ∧ (full4 0x70#8 0x71#8 0x72#8 0x73#8 3).ok 4 ∧
    Ring.ok 1 ⟨[], 0, 0, false⟩ ∧ Ring.ok 128 ⟨[], 127, 0, false⟩ := by decide

theorem witness_pops :
    midRun.agent = .main ∧ midRun.rx.ok midRun.cfg.n ∧ ¬(midRun.rx.wr = midRun.rx.rd ∧ midRun.rx.full = false) ∧
    midRun.tx.ok midRun.cfg.n ∧ ¬(midRun.tx.wr = midRun.tx.rd ∧ midRun.tx.full = false) ∧
    (let q := full4 0x70#8 0x71#8 0x72#8 0x73#8 3; q.ok 4 ∧ ¬(q.wr = q.rd ∧ q.full = false)) := by decide

theorem witness_empty_rings :
    (base .A .main).agent = .main ∧ (base .A .main).rx.wr = (base .A .main).rx.rd ∧ (base .A .main).rx.full = false ∧
    (base .A .main).tx.wr = (base .A .main).tx.rd ∧ (base .A .main).tx.full = false ∧
    (base .A .main).cfg.staleEmpty = false := by decide

/-- A build with stale emptiness tests, for each agent that makes one. -/
theorem witness_stale_tests :
    let c : Config := { Config.build .A with staleEmpty := true }
    let s : State := { midRun with cfg := c, txAct := false }
    let t : State := { midRun with cfg := c, agent := .txi }
    s.cfg.staleEmpty = true ∧ s.agent = .main ∧ s.rx.ok s.cfg.n ∧ s.rx.isEmpty = false ∧ s.fr.fst ≠ .ad ∧
    s.tx.ok s.cfg.n ∧ s.tx.isEmpty = false ∧ s.txAct = false ∧ t.cfg.staleEmpty = true ∧ t.agent = .txi := by decide

/-- L2-R18 and its like: empty rings and an active transmitter in a build with stale emptiness tests. -/
theorem witness_stale_tests_of_empty_rings :
    let c : Config := { Config.build .A with staleEmpty := true }
    let s : State := { base .A .main with cfg := c, rx := ⟨[], 5, 5, false⟩ }
    let t : State := { base .A .txi with cfg := c, txAct := true }
    s.cfg.staleEmpty = true ∧ s.agent = .main ∧ s.rx.ok s.cfg.n ∧ s.rx.isEmpty = true ∧ s.rx.unread s.cfg.n = [] ∧
      s.tx.isEmpty = true ∧ s.tx.wr = s.tx.rd ∧ t.agent = .txi ∧ t.cfg.staleEmpty = true ∧ t.tx.isEmpty = true ∧
      ({ midRun with cfg := c }).txAct = true := by decide

/-- L2-R18. -/
theorem test_stale_test_of_an_empty_ring :
    got (exec .emptyRx { base .A .main with
      cfg := { Config.build .A with staleEmpty := true }, rx := ⟨[], 5, 5, false⟩ }) (fun s => (s.result, s.draws)) =
      some (some 0x01#8, 0) := by decide

theorem witness_ring_histories : 1 ≤ 1 ∧ 1 ≤ 255 := by decide

/-- `EMPTY_RX` answers 0, then a receive event and a transmit event happen. -/
theorem witness_nonempty_answer :
    ∃ t u, exec .emptyRx midRun = .next t ∧ t.result = some 0x00#8 ∧
      Sys2Proof.core.run 2 { t with turns := [.receive, .transmitReady] } = .next u ∧ midRun.inv :=
  ⟨_, _, rfl, by decide, rfl, by decide⟩

theorem witness_tx_ready :
    (base .A .txi).agent = .txi ∧ (base .A .txi).tx.isEmpty = true ∧
    (let s : State := { base .A .txi with tx := holding [0x24#8] }
     s.cfg.staleEmpty = false ∧ s.tx.ok s.cfg.n ∧ ¬(s.tx.wr = s.tx.rd ∧ s.tx.full = false)) := by decide

theorem witness_pump :
    midRun.txAct = true ∧ (base .A .main).tx.isEmpty = true ∧
    (let s : State := { base .A .main with tx := holding [0x24#8] }
     s.agent = .main ∧ s.cfg.staleEmpty = false ∧ s.tx.ok s.cfg.n ∧ s.txAct = false ∧
      ¬(s.tx.wr = s.tx.rd ∧ s.tx.full = false)) := by decide

/-- A step that starts the transmitter and one that idles it, with what the line gets. -/
theorem witness_transmitter_moves :
    (∃ t, step (issuing 0x8000#16 { midRun with txAct := false }) = .next t ∧ t.txAct = true ∧ t.txd = [0x24#8]) ∧
    (∃ t, step { base .A .main with txie := true, txAct := true, turns := [.transmitReady] } = .next t ∧
      t.txAct = false) := ⟨⟨_, rfl, by decide⟩, ⟨_, rfl, by decide⟩⟩

theorem witness_fr_step_takes_nothing :
    (receiving [0x24#8] gooDone).fr.fst = .ad ∧ (base .A .main).rx.isEmpty = true := by decide

/-- MAIN has this byte to take in this framer state. -/
abbrev Sees (st : FState) (b : Byte) (s : State) : Prop :=
  s.agent = .main ∧ s.cfg.staleEmpty = false ∧ s.rx.isEmpty = false ∧ s.fr.fst = st ∧ s.rx.mem.read s.rx.rd = b ∧ s.inv

/-- In `AH`: a header and another byte, of each grammar. -/
theorem witness_fr_step_in_ah :
    Sees .ah 0x24#8 { base .A .main with rx := holding [0x24#8] } ∧
    Sees .ah 0x78#8 { base .A .main with rx := holding [0x78#8] } ∧
    Sees .ah 0x00#8 { base .B .main with rx := ⟨[], 1, 0, false⟩ } ∧
    Sees .ah 0x24#8 { base .B .main with rx := holding [0x24#8] } := by
  refine ⟨?_, ?_, ?_, ?_⟩ <;> decide

/-- In `AB`: an end marker of each grammar on frames that are right and wrong, a header, a data byte. -/
theorem witness_fr_step_in_ab :
    Sees .ab 0x23#8 midRun ∧
    Sees .ab 0x23#8 (receiving [0x23#8] (inBody [0x47#8, 0x4F#8] .none)) ∧
    Sees .ab 0xFF#8 { base .B .main with rx := holding [0xFF#8], fr := inBody [0x43#8] .none } ∧
    Sees .ab 0x24#8 (receiving [0x24#8] (inBody [0x47#8] .none)) ∧
    Sees .ab 0x4F#8 (receiving [0x4F#8] (inBody [0x47#8, 0x4F#8] .none)) := by
  refine ⟨?_, ?_, ?_, ?_, ?_⟩ <;> decide

/-- A body read in `AH`. -/
theorem witness_fr_body_in_ah :
    (base .A .main).agent = .main ∧ (base .A .main).inv ∧ (base .A .main).fr.fst = .ah := by decide

/-- `$`, `E` taken of three bytes that wait, with a turn left over. -/
theorem witness_fr_steps :
    let s : State := { base .A .main with
      rx := holding [0x24#8, 0x45#8, 0x4E#8]
      turns := List.replicate 2 (.issue .main 0x4000#16) ++ [.receive] }
    s.agent = .main ∧ s.refused = none ∧ s.cfg.staleEmpty = false ∧ s.rx.ok s.cfg.n ∧
      s.rx.unread s.cfg.n = [0x24#8, 0x45#8] ++ [0x4E#8] ∧
      ∀ k, k < 2 → (takeBytes ([0x24#8, 0x45#8].take k) s).fr.fst ≠ .ad := by decide

/-- Steps in which the framer moves, and an `FR_STEP` in `AD`. -/
theorem witness_framer_moves :
    (∃ t, step (issuing 0x4000#16 midRun) = .next t ∧ t.fr ≠ midRun.fr) ∧
    (∃ t, step (issuing 0x4000#16 (receiving [0x24#8] gooDone)) = .next t) := ⟨⟨_, rfl, by decide⟩, ⟨_, rfl⟩⟩

/-- L1-8. -/
theorem witness_noise :
    (base .A .main).fr.fst = .ah ∧ [0x24#8, 0x45#8, 0x4E#8, 0x44#8, 0x23#8] ≠ ([] : List Byte) ∧
    ∀ b ∈ [0x78#8, 0x79#8, 0x23#8, 0x7A#8], b ≠ headerByte .A := by decide

/-- L2-F15, after its third body byte. -/
theorem witness_undefined_mnemonic :
    let s : State := { base .A .main with fr := inBody [0x58#8, 0x59#8, 0x5A#8] .undef }
    s.inv ∧ s.fr.fst = .ab ∧ s.fr.cmd = .undef ∧
      ∀ b ∈ [0x31#8, 0x32#8, 0x23#8], b ≠ headerByte s.cfg.grammar := by decide

theorem witness_marker_rows :
    decodeWire 0x23#8 = .ok .endA ∧ midRun.rx.mem.read midRun.rx.rd = 0x23#8 ∧ midRun.agent = .main ∧
    midRun.cfg.staleEmpty = false ∧ midRun.rx.ok midRun.cfg.n ∧ midRun.fr.fst ≠ .ad :=
  ⟨rfl, by decide, by decide, by decide, by decide, by decide⟩

/-- The third byte of `GOO` arrives. -/
theorem witness_mnemonic_rows :
    let s : State := receiving [0x4F#8] (inBody [0x47#8, 0x4F#8] .none)
    let f : Framer := s.fr.append s.cfg (s.rx.mem.read s.rx.rd)
    s.agent = .main ∧ s.cfg.staleEmpty = false ∧ s.inv ∧ s.cfg.grammar = .A ∧ s.fr.fst = .ab ∧
      s.fr.bodyLen.toNat = 2 ∧ (decodeMnemonic (f.body.read 0 ++ f.body.read 1 ++ f.body.read 2)).toOption = some .mnemGoo := by
  decide

/-- A step that clears a STATUS bit, and one that changes the enables. -/
theorem witness_status_and_enables :
    (∃ t, step (issuing 0xA010#16 midRun) = .next t ∧ midRun.status.getLsbD 4 = true ∧ t.status.getLsbD 4 = false) ∧
    (∃ t, step (issuing 0x9000#16 midRun) = .next t ∧ ¬(t.rxie = midRun.rxie ∧ t.txie = midRun.txie)) :=
  ⟨⟨_, rfl, by decide⟩, ⟨_, rfl, by decide⟩⟩

/-- Steps that touch each ring. -/
theorem witness_rings_touched :
    (∃ t, step { midRun with turns := [.receive] } = .next t ∧ t.rx ≠ midRun.rx) ∧
    (∃ t, step { midRun with turns := [.transmitReady] } = .next t ∧ t.tx ≠ midRun.tx) :=
  ⟨⟨_, rfl, by decide⟩, ⟨_, rfl, by decide⟩⟩

/-- L2-P6: a response frame in a Grammar A build. -/
theorem witness_response_frame :
    (base .A .main).inv ∧ (base .A .main).cfg.grammar = .A ∧ (base .A .main).fr.fst = .ah ∧
    frameBytes .A 0x41#8 0x4C#8 0x54#8 0x1234 4 =
      some [0x24#8, 0x41#8, 0x4C#8, 0x54#8, 0x31#8, 0x32#8, 0x33#8, 0x34#8, 0x23#8] := by decide

/-! ### Fairness (70_reset_and_hazards.md R254) -/

/-- Both spellings of each interrupt agent's step count; a byte that is not the head of `RXLINE`, another agent's turn and
a masked event do not. -/
theorem test_takes_step :
    takesStep .rxi .receive midRun = true ∧ takesStep .rxi (.issue .rxi 0x1024#16) midRun = true ∧
    takesStep .rxi (.issue .rxi 0x1025#16) midRun = false ∧ takesStep .rxi (.issue .main 0x1024#16) midRun = false ∧
    takesStep .txi .transmitReady midRun = true ∧ takesStep .txi (.issue .txi 0x7000#16) midRun = true ∧
    takesStep .txi (.issue .txi 0x4000#16) midRun = false ∧
    takesStep .rxi .receive { midRun with rxie := false } = false := by decide

/-- A schedule in which TXI only ever issues its word is fair to it. -/
theorem test_issued_words_are_fair (s : State) : WeaklyFair (fun _ => .issue .txi 0x7000#16) s .txi :=
  weaklyFair_of_always fun _ _ he => takesStep_txi_iff.mpr ⟨he, .inr rfl⟩

/-- A schedule in which MAIN only ever issues `NOP`, with a byte to receive: RXI keeps having a step and takes none. -/
theorem test_starving_schedule_is_unfair : ¬WeaklyFair (fun _ => .issue .main 0x0000#16) midRun .rxi := by
  have runs : ∀ j, ∃ s, runSchedule (fun _ => .issue .main 0x0000#16) midRun j = some s ∧ enabled .rxi s = true := by
    intro j
    induction j with
    | zero => exact ⟨midRun, rfl, by decide⟩
    | succ j ih =>
      obtain ⟨s, hs, he⟩ := ih
      have hm : enabled .main (s.withTurns []) = true := by simp [enabled, refused_of_enabled he]
      have ht : (s.withTurns [.issue .main 0x0000#16]).turns = [.issue .main 0x0000#16] := rfl
      have hstep : step (s.withTurns [.issue .main 0x0000#16]) =
          .next (((s.withTurns []).issuing .main s.rxline).withResult 0x00#8) := by
        rw [step_agent_turn ht rfl]
        exact congrArg (perform · _) (issueFor_of_enabled hm (by simp))
      exact ⟨((s.withTurns []).issuing .main s.rxline).withResult 0x00#8, runSchedule_succ hs hstep, he⟩
  intro hfair
  obtain ⟨j, s, -, -, h⟩ := hfair 0 fun j _ => runs j
  obtain ⟨-, b, line, -, h⟩ := takesStep_rxi_iff.mp h
  rcases h with h | h <;> cases h

end Sys2Proof.Tests
end

/-! ## What an operation can do

The inversion of `exec`, said once: every step lemma below is a case split over `Effect`. -/

namespace Sys2Proof.Machine

/-- The forms the next state of an operation can have when its permitted agent issues it (10_state.md R50), one
constructor per path through its rule. The draw counter after an emptiness test (20_memory.md R66) is left open. -/
inductive Effect (s : State) : Instr → State → Prop
  | nop : Effect s .nop (s.withResult 0x00#8)
  | pushRx {b : Byte} {t : State} : pushRing .rx b s = .next t → Effect s (.pushRx b) (t.withResult 0x00#8)
  | pushTx {b : Byte} {t : State} : pushRing .tx b s = .next t → Effect s (.pushTx b) (t.withResult 0x00#8)
  | popRx {p : Byte × State} : popRing .rx s = .next p → Effect s .popRx (p.2.withResult p.1)
  | popTx {p : Byte × State} : popRing .tx s = .next p → Effect s .popTx (p.2.withResult p.1)
  | emptyRx : Effect s .emptyRx (emptyQuery .rx s)
  | emptyTx : Effect s .emptyTx (emptyQuery .tx s)
  | frStepHeld : s.fr.fst = .ad → Effect s .frStep (s.withResult 0x00#8)
  | frStepNone (k : Nat) : s.fr.fst ≠ .ad → Effect s .frStep (State.withResult { s with draws := k } 0x00#8)
  | frStepTake (k : Nat) : s.fr.fst ≠ .ad → s.rx.isEmpty = false →
      Effect s .frStep (takeByte (s.rx.mem.read s.rx.rd)
        (State.setRing { s with draws := k } .rx (s.rx.popped s.cfg.n)))
  | frAck : s.fr.fst = .ad → Effect s .frAck ((s.setFramer (s.fr.cleared .ah)).withResult 0x01#8)
  | frAckNone : s.fr.fst ≠ .ad → Effect s .frAck (s.withResult 0x00#8)
  | frBody (k : Byte) : Effect s (.frBody k) (s.withResult (s.bodyByte k))
  | txReadyIdle (k : Nat) : Effect s .txReady (State.withResult { s with draws := k, txAct := false } 0x00#8)
  | txReadySend (k : Nat) : s.tx.isEmpty = false →
      Effect s .txReady (State.withResult
        ((State.setRing { s with draws := k } .tx (s.tx.popped s.cfg.n)).emit (s.tx.mem.read s.tx.rd)) 0x00#8)
  | pumpBusy : s.txAct = true → Effect s .pump (s.withResult 0x00#8)
  | pumpNone (k : Nat) : s.txAct = false → Effect s .pump (State.withResult { s with draws := k } 0x00#8)
  | pumpSend (k : Nat) : s.txAct = false → s.tx.isEmpty = false →
      Effect s .pump (State.withResult { (State.setRing { s with draws := k } .tx (s.tx.popped s.cfg.n)).emit
        (s.tx.mem.read s.tx.rd) with txAct := true } 0x01#8)
  | ieWrite (v : BitVec 2) :
      Effect s (.ieWrite v) (State.withResult { s with rxie := v.getLsbD 0, txie := v.getLsbD 1 } 0x00#8)
  | clrStatus (m : BitVec 5) :
      Effect s (.clrStatus m) (State.withResult { s with status := statusClear s.status m } 0x00#8)
  | rdReg {r : BitVec 4} {v : Byte} : s.readReg r = some v → Effect s (.rdReg r) (s.withResult v)
  | rdRegReserved {r : BitVec 4} : s.readReg r = none → Effect s (.rdReg r) (s.refuse .reservedRegister)
  | marker {i : Instr} {b : Byte} : encode i = .wire b → Effect s i (takeByte b s)
  | mnemonic {i : Instr} {p : Pattern} : encode i = .mnemonic p → Effect s i (recognise p (lookupCmd p) s)

/-- An operation issued by another agent than its own is refused (10_state.md R50, 60_exceptions.md R219). -/
theorem exec_of_agent_ne {i : Instr} {s : State} (h : s.agent ≠ Instr.agent i) :
    exec i s = .next (s.refuse .wrongAgent) := by
  cases i <;> exact if_neg h

/-- What is known of an emptiness test from its answer (20_memory.md R66). -/
theorem emptySeen_eq {q : RingSel} {s u : State} {e : Bool} (h : emptySeen q s = (e, u)) :
    ∃ k, u = { s with draws := k } ∧ (e = false → (s.ring q).isEmpty = false) := by
  have hc := emptySeen_cases q s
  rwa [h] at hc

/-- Every next state of an `FR_STEP` of its permitted agent (42_framer.md R141, R149). -/
theorem execFrStep_next {s t : State} (ha : s.agent = .main) (h : execFrStep s = .next t) : Effect s .frStep t := by
  have h := (issuedBy_of_agent ha _).symm.trans h
  split at h
  case isTrue had => cases h; exact .frStepHeld had
  case isFalse had =>
    split at h <;> rename_i u hu <;> obtain ⟨k, rfl, he⟩ := emptySeen_eq hu
    · cases h; exact .frStepNone k had
    · obtain ⟨p, hp, ht⟩ := andThen_eq_next h
      rcases popRing_next hp with ⟨h1, -⟩ | ⟨-, rfl⟩
      · exact absurd ((he rfl).symm.trans h1) nofun
      · cases ht; exact .frStepTake k had (he rfl)

/-- Every next state of a `TX_READY` of its permitted agent (41_transport.md R122). -/
theorem execTxReady_next {s t : State} (ha : s.agent = .txi) (h : execTxReady s = .next t) : Effect s .txReady t := by
  have h := (issuedBy_of_agent ha _).symm.trans h
  split at h <;> rename_i u hu <;> obtain ⟨k, rfl, he⟩ := emptySeen_eq hu
  · cases h; exact .txReadyIdle k
  · obtain ⟨u, hu, ht⟩ := andThen_eq_next h
    cases sendByte_next (s := { s with draws := k }) (he rfl) hu
    cases ht; exact .txReadySend k (he rfl)

/-- Every next state of a `PUMP` of its permitted agent (43_tx_frame_pump.md R170). -/
theorem execPump_next {s t : State} (ha : s.agent = .main) (h : execPump s = .next t) : Effect s .pump t := by
  have h := (issuedBy_of_agent ha _).symm.trans h
  split at h
  case isTrue hact => cases h; exact .pumpBusy hact
  case isFalse hact =>
    have hact := Bool.eq_false_iff.mpr hact
    split at h <;> rename_i u hu <;> obtain ⟨k, rfl, he⟩ := emptySeen_eq hu
    · cases h; exact .pumpNone k hact
    · obtain ⟨u, hu, ht⟩ := andThen_eq_next h
      cases sendByte_next (s := { s with draws := k }) (he rfl) hu
      cases ht; exact .pumpSend k hact (he rfl)

/-- Every next state of an operation, in any state: a refusal of the wrong agent, or a form of `Effect`. -/
theorem exec_next {i : Instr} {s t : State} (h : exec i s = .next t) :
    (s.agent ≠ Instr.agent i ∧ t = s.refuse .wrongAgent) ∨ (s.agent = Instr.agent i ∧ Effect s i t) := by
  by_cases ha : s.agent = Instr.agent i
  case neg =>
    rw [exec_of_agent_ne ha] at h
    cases h
    exact .inl ⟨ha, rfl⟩
  refine .inr ⟨ha, ?_⟩
  cases i with
  | frStep => exact execFrStep_next ha h
  | txReady => exact execTxReady_next ha h
  | pump => exact execPump_next ha h
  | pushRx b =>
    obtain ⟨u, hu, ht⟩ := andThen_eq_next ((if_pos ha).symm.trans h)
    cases ht; exact .pushRx hu
  | pushTx b =>
    obtain ⟨u, hu, ht⟩ := andThen_eq_next ((if_pos ha).symm.trans h)
    cases ht; exact .pushTx hu
  | popRx =>
    obtain ⟨p, hp, ht⟩ := andThen_eq_next ((if_pos ha).symm.trans h)
    cases ht; exact .popRx hp
  | popTx =>
    obtain ⟨p, hp, ht⟩ := andThen_eq_next ((if_pos ha).symm.trans h)
    cases ht; exact .popTx hp
  | frAck =>
    have h := (if_pos ha).symm.trans h
    split at h
    case isTrue had => cases h; exact .frAck had
    case isFalse had => cases h; exact .frAckNone had
  | rdReg r =>
    have h := (if_pos ha).symm.trans h
    split at h
    case h_1 hv => cases h; exact .rdReg hv
    case h_2 hv => cases h; exact .rdRegReserved hv
  | nop => cases (if_pos ha).symm.trans h; exact .nop
  | emptyRx => cases (if_pos ha).symm.trans h; exact .emptyRx
  | emptyTx => cases (if_pos ha).symm.trans h; exact .emptyTx
  | frBody k => cases (if_pos ha).symm.trans h; exact .frBody k
  | ieWrite v => cases (if_pos ha).symm.trans h; exact .ieWrite v
  | clrStatus m => cases (if_pos ha).symm.trans h; exact .clrStatus m
  | headerA | endA | headerB | endB => cases (if_pos ha).symm.trans h; exact .marker rfl
  | mnemGoo | mnemEnd | mnemSpd | mnemAlt | mnemMan | mnemLed =>
    cases (if_pos ha).symm.trans h; exact .mnemonic rfl

end Sys2Proof.Machine

/-! ## The invariants (10_state.md R25, R30, R32, R33)

One rule per update of a ring or of the framer; an update of any other field keeps the invariants by definition. -/

namespace Sys2Proof.Machine

theorem State.inv_ring {s : State} (h : s.inv) (q : RingSel) : (s.ring q).ok s.cfg.n := by
  obtain ⟨-, hrx, htx, -⟩ := h
  cases q
  · exact hrx
  · exact htx

theorem State.inv_setRing {s : State} (h : s.inv) {q : RingSel} {r : Ring} (hr : r.ok s.cfg.n) :
    (s.setRing q r).inv := by
  obtain ⟨hc, hrx, htx, hfr⟩ := h
  cases q
  · exact ⟨hc, hr, htx, hfr⟩
  · exact ⟨hc, hrx, hr, hfr⟩

theorem State.inv_setFramer {s : State} (h : s.inv) {f : Framer} (hf : f.ok s.cfg) : (s.setFramer f).inv := by
  obtain ⟨hc, hrx, htx, -⟩ := h
  exact ⟨hc, hrx, htx, hf⟩

/-- A pop that takes a byte keeps the invariants (40_ring_buffer.md R104). -/
theorem State.inv_popped {s : State} (h : s.inv) (q : RingSel) : (s.setRing q ((s.ring q).popped s.cfg.n)).inv :=
  State.inv_setRing h (Ring.popped_ok (State.inv_ring h q))

/-- A push keeps the invariants, overflowing or not (40_ring_buffer.md R101). -/
theorem pushRing_inv {q : RingSel} {b : Byte} {s t : State} (h : s.inv) (hp : pushRing q b s = .next t) : t.inv := by
  have hok := State.inv_setRing (q := q) h (Ring.pushed_ok (State.inv_ring h q) b)
  rw [pushRing_eq (State.inv_ring h q)] at hp
  cases hp
  split
  · exact hok
  · exact hok

/-- A pop keeps the invariants, underflowing or not (40_ring_buffer.md R104). -/
theorem popRing_inv {q : RingSel} {s : State} {p : Byte × State} (h : s.inv) (hp : popRing q s = .next p) : p.2.inv := by
  rcases popRing_next hp with ⟨-, rfl⟩ | ⟨-, rfl⟩
  · exact h
  · exact State.inv_popped h q

/-- An emptiness test keeps the invariants (20_memory.md R66). -/
theorem emptyQuery_inv {s : State} (h : s.inv) (q : RingSel) : (emptyQuery q s).inv := by
  unfold emptyQuery
  split
  rename_i he
  obtain ⟨k, rfl, -⟩ := emptySeen_eq he
  exact h

/-- Every arm of the framer keeps the invariants (42_framer.md R141 to R145, R149). -/
theorem takeByte_inv {s : State} (h : s.inv) (b : Byte) : (takeByte b s).inv := by
  have ⟨hc, _, _, hf⟩ := h
  rcases takeByte_cases b s with ⟨-, e⟩ | ⟨-, -, e⟩ | ⟨-, -, e⟩ | ⟨-, -, e⟩ | ⟨-, -, -, hok, e⟩ | ⟨-, -, -, -, e⟩ |
    ⟨hab, -, -, e⟩ <;> rw [e]
  · exact h
  · exact State.inv_setFramer h (Framer.cleared_ok hf (by decide))
  · exact h
  · exact State.inv_setFramer h (Framer.cleared_ok hf (by decide))
  · exact State.inv_setFramer h (Framer.close_ok hc hf hok)
  · exact State.inv_setFramer h (Framer.cleared_ok hf (by decide))
  · exact State.inv_setFramer h (Framer.collect_ok hc hf hab b)

/-- Taking the command type of a lookup at the third body byte keeps the framer invariants (42_framer.md R146). -/
theorem Framer.recognised_ok {c : Config} {f : Framer} (h : f.ok c) (hA : c.grammar = .A) (hab : f.fst = .ab)
    (h3 : f.bodyLen = 0x03#8) {m : Cmd} (hm : m ≠ .none) : Framer.ok c { f with cmd := m, width := m.width } := by
  obtain ⟨-, -, -, hlen, -, hw, hb⟩ := h
  exact ⟨by simp [hab], by simp [hA, h3, hm], rfl, hlen, by simp [hab], hw, hb⟩

/-- A row of the mnemonic lookup keeps the invariants (42_framer.md R146). -/
theorem recognise_inv {s : State} (h : s.inv) (p : Pattern) {m : Cmd} (hm : m ≠ .none) : (recognise p m s).inv := by
  have ⟨_, _, _, hf⟩ := h
  unfold recognise
  split
  case isTrue hc =>
    obtain ⟨hA, hab, h3, -⟩ := hc
    exact State.inv_setFramer h (Framer.recognised_ok hf hA hab h3 hm)
  case isFalse => exact h

/-- An operation of its permitted agent keeps the invariants. -/
theorem Effect.inv {i : Instr} {s t : State} (he : Effect s i t) (h : s.inv) : t.inv := by
  have ⟨_, _, _, hf⟩ := h
  cases he with
  | pushRx hp | pushTx hp =>
    have ht := pushRing_inv h hp
    exact ht
  | popRx hp | popTx hp => exact popRing_inv h hp
  | emptyRx | emptyTx => exact emptyQuery_inv h _
  | frStepTake k => exact takeByte_inv (State.inv_popped (s := { s with draws := k }) h .rx) _
  | txReadySend k | pumpSend k => exact State.inv_popped (s := { s with draws := k }) h .tx
  | frAck => exact State.inv_setFramer h (Framer.cleared_ok hf (by decide))
  | marker => exact takeByte_inv h _
  | mnemonic => exact recognise_inv h _ (lookupCmd_ne_none _)
  | nop | frStepHeld | frStepNone | frAckNone | frBody | txReadyIdle | pumpBusy | pumpNone | ieWrite | clrStatus
  | rdReg | rdRegReserved => exact h

/-- Every operation keeps the invariants, whichever agent issues it. -/
theorem exec_inv {i : Instr} {s t : State} (h : s.inv) (he : exec i s = .next t) : t.inv := by
  rcases exec_next he with ⟨-, rfl⟩ | ⟨-, he⟩
  · exact h
  · exact he.inv h

/-- Issuing a word comes to its operation, or to a refusal of a reserved word (30_encoding.md R84). -/
theorem issueWord_next {w : OpWord} {s t : State} (h : issueWord w s = .next t) :
    (∃ e, decodeOp w = .error e ∧ t = s.refuse .reservedEncoding) ∨ (∃ i, decodeOp w = .ok i ∧ exec i s = .next t) := by
  unfold issueWord at h
  split at h
  case h_1 i hi => exact .inr ⟨i, hi, h⟩
  case h_2 e hd => cases h; exact .inl ⟨e, hd, rfl⟩

theorem issueWord_inv {w : OpWord} {s t : State} (h : s.inv) (hw : issueWord w s = .next t) : t.inv := by
  rcases issueWord_next hw with ⟨-, -, rfl⟩ | ⟨i, -, he⟩
  · exact h
  · exact exec_inv h he

/-- A ring put back to empty, with the bytes it stored, has the ring invariants (10_state.md R53). -/
theorem Ring.emptied_ok {n : Nat} {m : Memory} (hn : 1 ≤ n) (hw : m.wf) (hb : m.below n) :
    Ring.ok n { mem := m, wr := 0, rd := 0, full := false } :=
  ⟨hn, hn, fun _ => rfl, hw, hb⟩

/-- The block's reset keeps the invariants (70_reset_and_hazards.md R240). -/
theorem State.blockReset_inv {s : State} (h : s.inv) : s.blockReset.inv := by
  obtain ⟨hc, ⟨-, -, -, hrw, hrb⟩, ⟨-, -, -, htw, htb⟩, hf⟩ := h
  have ⟨hn, _, _, _⟩ := hc
  exact ⟨hc, Ring.emptied_ok hn hrw hrb, Ring.emptied_ok hn htw htb, Framer.cleared_ok hf (by decide)⟩

/-- Every step keeps the invariants. -/
theorem step_inv {s t : State} (h : s.inv) (hs : step s = .next t) : t.inv := by
  rcases step_next hs with ⟨-, rfl⟩ | ⟨rest, -, rfl⟩ | ⟨-, rest, a, w, -, -, -, h3⟩
  · exact h
  · exact State.blockReset_inv (s := s.withTurns rest) h
  · rcases h3 with ⟨-, rfl⟩ | ⟨-, -, rfl⟩ | ⟨-, line, -, hw⟩
    · exact h
    · exact h
    · exact issueWord_inv (s := (s.withTurns rest).issuing a line) h hw

/-- Settles O17: the step inversion `step_next`, with one invariant lemma for each kind of turn. -/
theorem stepKeepsRingAndFramerInvariants : Obligations.StepKeepsRingAndFramerInvariants :=
  fun _ _ h hs => step_inv h hs

/-! ### Reset -/

/-- The state right after reset has the ring, framer and storage invariants (10_state.md R53). -/
theorem State.resetFor_inv {c : Config} (hc : c.wf) (line : List Byte) : (State.resetFor c line).inv := by
  have ⟨hn, _, _, _⟩ := hc
  have hw : Memory.wf [] := ⟨.nil, nofun⟩
  refine ⟨hc, Ring.emptied_ok hn hw nofun, Ring.emptied_ok hn hw nofun, ?_⟩
  exact ⟨fun _ => ⟨rfl, rfl, rfl⟩, by simp [State.resetFor], rfl, by simp [State.resetFor], nofun, hw, nofun⟩

/-- The state right after reset has no event and no STATUS bit set (10_state.md R53). -/
theorem State.resetFor_eventsOk (c : Config) (line : List Byte) : (State.resetFor c line).eventsOk :=
  ⟨nofun, fun i hi => by simp [State.resetFor] at hi⟩

/-- Settles O16. -/
theorem resetMeetsTheInvariants : Obligations.ResetMeetsTheInvariants :=
  fun c line hc => ⟨State.resetFor_inv hc line, State.resetFor_eventsOk c line⟩

end Sys2Proof.Machine

/-! ## No fault under the invariants (60_exceptions.md R210; log 9)

A ring access faults only on a slot at or past `N`, so under the invariants every operation answers a next state. -/

namespace Sys2Proof.Machine

/-- An answer that goes on, gone on with, goes on. -/
theorem andThen_answers {α β : Type} {o : Answer α} {f : α → Answer β} (ho : ∃ a, o = .next a)
    (hf : ∀ a, ∃ b, f a = .next b) : ∃ b, andThen o f = .next b := by
  obtain ⟨a, rfl⟩ := ho
  exact hf a

/-- A refusal of the wrong agent is a next state too (60_exceptions.md R219). -/
theorem issuedBy_answers {a : Agent} {s : State} {k : State → Answer State} (h : ∃ t, k s = .next t) :
    ∃ t, issuedBy a s k = .next t := by
  unfold issuedBy
  split
  · exact h
  · exact ⟨_, rfl⟩

theorem pushRing_answers {s : State} (h : s.inv) (q : RingSel) (b : Byte) : ∃ t, pushRing q b s = .next t :=
  ⟨_, pushRing_eq (State.inv_ring h q) b⟩

theorem popRing_answers {s : State} (h : s.inv) (q : RingSel) : ∃ p, popRing q s = .next p := by
  cases he : (s.ring q).isEmpty with
  | true => exact ⟨_, popRing_of_empty he⟩
  | false => exact ⟨_, popRing_of_nonempty (State.inv_ring h q) he⟩

theorem sendByte_answers {s : State} (h : s.inv) : ∃ t, sendByte s = .next t :=
  andThen_answers (popRing_answers h .tx) fun _ => ⟨_, rfl⟩

theorem execFrStep_answers {s : State} (h : s.inv) : ∃ t, execFrStep s = .next t := by
  refine issuedBy_answers ?_
  split
  · exact ⟨_, rfl⟩
  · split <;> rename_i u hu <;> obtain ⟨k, rfl, -⟩ := emptySeen_eq hu
    · exact ⟨_, rfl⟩
    · exact andThen_answers (popRing_answers (s := { s with draws := k }) h .rx) fun _ => ⟨_, rfl⟩

theorem execTxReady_answers {s : State} (h : s.inv) : ∃ t, execTxReady s = .next t := by
  refine issuedBy_answers ?_
  split <;> rename_i u hu <;> obtain ⟨k, rfl, -⟩ := emptySeen_eq hu
  · exact ⟨_, rfl⟩
  · exact andThen_answers (sendByte_answers (s := { s with draws := k }) h) fun _ => ⟨_, rfl⟩

theorem execPump_answers {s : State} (h : s.inv) : ∃ t, execPump s = .next t := by
  refine issuedBy_answers ?_
  split
  · exact ⟨_, rfl⟩
  · split <;> rename_i u hu <;> obtain ⟨k, rfl, -⟩ := emptySeen_eq hu
    · exact ⟨_, rfl⟩
    · exact andThen_answers (sendByte_answers (s := { s with draws := k }) h) fun _ => ⟨_, rfl⟩

theorem execPushRx_answers {s : State} (h : s.inv) (b : Byte) : ∃ t, execPushRx b s = .next t :=
  issuedBy_answers (andThen_answers (pushRing_answers h .rx b) fun _ => ⟨_, rfl⟩)

theorem execPushTx_answers {s : State} (h : s.inv) (b : Byte) : ∃ t, execPushTx b s = .next t :=
  issuedBy_answers (andThen_answers (pushRing_answers h .tx b) fun _ => ⟨_, rfl⟩)

theorem execPopRx_answers {s : State} (h : s.inv) : ∃ t, execPopRx s = .next t :=
  issuedBy_answers (andThen_answers (popRing_answers h .rx) fun _ => ⟨_, rfl⟩)

theorem execPopTx_answers {s : State} (h : s.inv) : ∃ t, execPopTx s = .next t :=
  issuedBy_answers (andThen_answers (popRing_answers h .tx) fun _ => ⟨_, rfl⟩)

theorem execFrAck_answers (s : State) : ∃ t, execFrAck s = .next t := by
  refine issuedBy_answers ?_
  split <;> exact ⟨_, rfl⟩

theorem execRdReg_answers (r : BitVec 4) (s : State) : ∃ t, execRdReg r s = .next t := by
  refine issuedBy_answers ?_
  split <;> exact ⟨_, rfl⟩

/-- Under the invariants every operation answers a next state, whichever agent issues it. -/
theorem exec_answers {s : State} (h : s.inv) (i : Instr) : ∃ t, exec i s = .next t := by
  by_cases ha : s.agent = Instr.agent i
  case neg => exact ⟨_, exec_of_agent_ne ha⟩
  cases i with
  | pushRx b => exact execPushRx_answers h b
  | pushTx b => exact execPushTx_answers h b
  | popRx => exact execPopRx_answers h
  | popTx => exact execPopTx_answers h
  | frStep => exact execFrStep_answers h
  | txReady => exact execTxReady_answers h
  | pump => exact execPump_answers h
  | frAck => exact execFrAck_answers s
  | rdReg r => exact execRdReg_answers r s
  | nop | emptyRx | emptyTx | frBody | ieWrite | clrStatus | headerA | endA | headerB | endB
  | mnemGoo | mnemEnd | mnemSpd | mnemAlt | mnemMan | mnemLed => exact ⟨_, if_pos ha⟩

theorem issueWord_answers {s : State} (h : s.inv) (w : OpWord) : ∃ t, issueWord w s = .next t := by
  unfold issueWord
  split
  · exact exec_answers h _
  · exact ⟨_, rfl⟩

/-- A fault of a step is a fault of a word an agent issued. -/
theorem step_fault {s : State} {r : Fault} (h : step s = .fault r) :
    ∃ rest a line w, issueWord w ((s.withTurns rest).issuing a line) = .fault r := by
  match ht : s.turns with
  | [] | .reset :: rest =>
    simp only [step, fetch, ht, perform] at h
    cases h
  | .issue a w :: rest | .receive :: rest | .transmitReady :: rest =>
    rw [step_agent_turn ht rfl] at h
    rcases issueFor_cases _ _ (s.withTurns rest) with ⟨_, -, e⟩ | ⟨-, -, e⟩ | ⟨-, -, -, _, l, -, -, e⟩ |
      ⟨-, -, -, e⟩ | ⟨-, -, -, e⟩ <;> rw [e] at h <;> simp only [perform] at h
    · cases h
    · cases h
    · exact ⟨rest, _, l, _, h⟩
    · cases h
    · exact ⟨rest, _, _, _, h⟩

/-- Settles O18: the issued word's operation answers a next state under the invariants (`exec_answers`). -/
theorem invariantStatesNeverFault : Obligations.InvariantStatesNeverFault := by
  intro s r h hs
  obtain ⟨rest, a, line, w, hw⟩ := step_fault hs
  obtain ⟨t, ht⟩ := issueWord_answers (s := (s.withTurns rest).issuing a line) h w
  exact absurd (hw.symm.trans ht) nofun

end Sys2Proof.Machine

/-! ## What an operation leaves alone -/

namespace Sys2Proof.Machine

theorem State.setRing_frame (s : State) (q : RingSel) (r : Ring) :
    (s.setRing q r).cfg = s.cfg ∧ (s.setRing q r).agent = s.agent ∧ (s.setRing q r).rxline = s.rxline := by
  cases q <;> exact ⟨rfl, rfl, rfl⟩

theorem State.setRing_ring_of_ne {p q : RingSel} (h : p ≠ q) (s : State) (r : Ring) :
    (s.setRing q r).ring p = s.ring p := by
  cases p <;> cases q
  · exact absurd rfl h
  · rfl
  · rfl
  · exact absurd rfl h

theorem pushRing_frame {q : RingSel} {b : Byte} {s t : State} (h : pushRing q b s = .next t) :
    t.cfg = s.cfg ∧ t.agent = s.agent ∧ t.rxline = s.rxline := by
  obtain ⟨r, ⟨-, rfl⟩ | ⟨-, lost, rfl⟩⟩ := pushRing_next h
  · exact State.setRing_frame s q r
  · exact State.setRing_frame s q r

theorem popRing_frame {q : RingSel} {s : State} {p : Byte × State} (h : popRing q s = .next p) :
    p.2.cfg = s.cfg ∧ p.2.agent = s.agent ∧ p.2.rxline = s.rxline := by
  rcases popRing_next h with ⟨-, rfl⟩ | ⟨-, rfl⟩
  · exact ⟨rfl, rfl, rfl⟩
  · exact State.setRing_frame s q _

/-- A push touches its own ring only. -/
theorem pushRing_ring_of_ne {p q : RingSel} (hne : p ≠ q) {b : Byte} {s t : State} (h : pushRing q b s = .next t) :
    t.ring p = s.ring p := by
  obtain ⟨r, ⟨-, rfl⟩ | ⟨-, lost, rfl⟩⟩ := pushRing_next h
  · exact State.setRing_ring_of_ne hne s r
  · exact State.setRing_ring_of_ne hne s r

/-- A pop touches its own ring only. -/
theorem popRing_ring_of_ne {p q : RingSel} (hne : p ≠ q) {s : State} {x : Byte × State} (h : popRing q s = .next x) :
    x.2.ring p = s.ring p := by
  rcases popRing_next h with ⟨-, rfl⟩ | ⟨-, rfl⟩
  · rfl
  · exact State.setRing_ring_of_ne hne s _

/-- An emptiness test changes the draw counter and the result only (20_memory.md R66). -/
theorem emptyQuery_eq (q : RingSel) (s : State) :
    ∃ k v, emptyQuery q s = State.withResult { s with draws := k } v := by
  unfold emptyQuery
  split
  rename_i he
  obtain ⟨k, rfl, -⟩ := emptySeen_eq he
  exact ⟨k, _, rfl⟩

/-- The framer's arms touch neither ring (42_framer.md R141 to R145). -/
theorem takeByte_ring (b : Byte) (s : State) (q : RingSel) : (takeByte b s).ring q = s.ring q := by
  cases q with
  | rx =>
    have h := congrArg State.rx (takeByte_with_rx_turns b s s.rx s.turns)
    exact h
  | tx =>
    obtain ⟨-, -, -, htx, -⟩ := takeByte_frame b s
    exact htx

@[simp] theorem takeByte_rxline (b : Byte) (s : State) : (takeByte b s).rxline = s.rxline := by
  obtain ⟨-, -, -, -, -, hl, -⟩ := takeByte_frame b s
  exact hl

/-- A row of the mnemonic lookup changes the framer only (42_framer.md R146). -/
theorem recognise_eq (p : Pattern) (m : Cmd) (s : State) : ∃ f, recognise p m s = s.setFramer f := by
  unfold recognise
  split
  · exact ⟨_, rfl⟩
  · exact ⟨s.fr, rfl⟩

/-- No operation changes a build parameter, the issuing agent or the line input (10_state.md R48, R54). -/
theorem Effect.frame {i : Instr} {s t : State} (h : Effect s i t) :
    t.cfg = s.cfg ∧ t.agent = s.agent ∧ t.rxline = s.rxline := by
  cases h with
  | pushRx hp | pushTx hp =>
    have ht := pushRing_frame hp
    exact ht
  | popRx hp | popTx hp => exact popRing_frame hp
  | emptyRx | emptyTx =>
    obtain ⟨k, v, e⟩ := emptyQuery_eq _ s
    rw [e]
    exact ⟨rfl, rfl, rfl⟩
  | frStepTake | marker => exact ⟨takeByte_cfg _ _, takeByte_agent _ _, takeByte_rxline _ _⟩
  | mnemonic =>
    obtain ⟨f, e⟩ := recognise_eq _ _ s
    rw [e]
    exact ⟨rfl, rfl, rfl⟩
  | nop | frStepHeld | frStepNone | frAck | frAckNone | frBody | txReadyIdle | txReadySend | pumpBusy | pumpNone
  | pumpSend | ieWrite | clrStatus | rdReg | rdRegReserved => exact ⟨rfl, rfl, rfl⟩

theorem exec_frame {i : Instr} {s t : State} (h : exec i s = .next t) :
    t.cfg = s.cfg ∧ t.agent = s.agent ∧ t.rxline = s.rxline := by
  rcases exec_next h with ⟨-, rfl⟩ | ⟨-, he⟩
  · exact ⟨rfl, rfl, rfl⟩
  · exact he.frame

theorem issueWord_cfg {w : OpWord} {s t : State} (h : issueWord w s = .next t) : t.cfg = s.cfg := by
  rcases issueWord_next h with ⟨-, -, rfl⟩ | ⟨i, -, he⟩
  · rfl
  · exact (exec_frame he).1

/-- Settles O12: only a reset or no turn at all answers a next state once `REFUSED` is set, and both keep it. -/
theorem stepNeverClearsRefusedNorChangesConfig : Obligations.StepNeverClearsRefusedNorChangesConfig := by
  intro s t h
  rcases step_next h with ⟨-, rfl⟩ | ⟨rest, -, rfl⟩ | ⟨-, rest, a, w, -, -, hr, h3⟩
  · exact ⟨rfl, fun _ => rfl⟩
  · exact ⟨rfl, fun _ => rfl⟩
  · refine ⟨?_, fun hne => absurd hr hne⟩
    rcases h3 with ⟨-, rfl⟩ | ⟨-, -, rfl⟩ | ⟨-, line, -, hw⟩
    · rfl
    · rfl
    · exact (issueWord_cfg hw).trans rfl

end Sys2Proof.Machine

/-! ## Turns (10_state.md R50 to R52)

What a turn comes to, by its agent: the interrupt events are the turns in which their agent issues its own word. -/

namespace Sys2Proof.Machine

theorem asIssue_of_ne_reset {t : Turn} (h : t ≠ .reset) (s : State) : ∃ a w, t.asIssue s = some (a, w) := by
  cases t with
  | reset => exact absurd rfl h
  | issue a w => exact ⟨a, w, rfl⟩
  | receive | transmitReady => exact ⟨_, _, rfl⟩

/-- MAIN has no event: its turns are the words it issues (10_state.md R50). -/
theorem asIssue_main {t : Turn} {s : State} {w : OpWord} (h : t.asIssue s = some (.main, w)) : t = .issue .main w := by
  cases t <;> cases h
  rfl

section

variable {s : State} {tn : Turn} {rest : List Turn} {a : Agent} {w : OpWord}

/-- After a refusal an agent's turn is no step (10_state.md R51). -/
theorem step_of_refused {why : RefuseReason} (ht : s.turns = tn :: rest) (ha : tn.asIssue s = some (a, w))
    (hr : s.refused = some why) : step s = .refused (.runRefused why) := by
  have hi : issueFor a w (s.withTurns rest) = .stopped why := by
    unfold issueFor
    rw [show (s.withTurns rest).refused = some why from hr]
  rw [step_agent_turn ht ha, hi]
  rfl

/-- The turn of an agent without a step is used up (10_state.md R51). -/
theorem step_of_disabled (ht : s.turns = tn :: rest) (ha : tn.asIssue s = some (a, w)) (hr : s.refused = none)
    (hd : enabled a s = false) : step s = .next (s.withTurns rest) := by
  rw [step_agent_turn ht ha, issueFor_of_disabled (s := s.withTurns rest) hr hd]
  rfl

/-- An agent with a step executes the operation it issues; RXI's own is `step_of_receive`. -/
theorem step_of_enabled {i : Instr} (ht : s.turns = tn :: rest) (ha : tn.asIssue s = some (a, w))
    (he : enabled a s = true) (hi : decodeOp w = .ok i) (hn : a = .rxi → ¬(fieldOp w = 0x1#4 ∧ fieldX w = 0#4)) :
    step s = exec i ((s.withTurns rest).issuing a s.rxline) := by
  rw [step_agent_turn ht ha, issueFor_of_enabled (s := s.withTurns rest) he hn]
  simp only [perform, issueWord, hi]
  rfl

/-- RXI with a step pushes the head of `RXLINE`, which leaves it (41_transport.md R120). -/
theorem step_of_receive {b : Byte} {line : List Byte} (ht : s.turns = tn :: rest)
    (ha : tn.asIssue s = some (.rxi, pushRxWord b)) (he : enabled .rxi s = true) (hl : s.rxline = b :: line) :
    step s = exec (.pushRx b) ((s.withTurns rest).issuing .rxi line) := by
  rw [step_agent_turn ht ha, issueFor_receive (s := s.withTurns rest) he hl]
  simp only [perform, issueWord, decodeOp_pushRxWord]

end

theorem enabled_rxi_eq_false {s : State} (h : s.rxie = false ∨ s.rxline = []) : enabled .rxi s = false := by
  rcases h with h | h <;> simp [enabled, h]

theorem enabled_txi_eq_false {s : State} (h : s.txie = false ∨ s.txAct = false) : enabled .txi s = false := by
  rcases h with h | h <;> simp [enabled, h]

/-- A word with `OP` 1 and `I` 0 is a `PUSH_RX` of its field `D` (30_encoding.md R81). -/
theorem decodeOp_of_pushRx_fields {w : OpWord} (hop : fieldOp w = 0x1#4) (hx : fieldX w = 0#4) :
    decodeOp w = .ok (.pushRx (fieldD w)) := by
  have hw : w = pushRxWord (fieldD w) := by
    rw [pushRxWord, ← hop, ← hx]
    exact (opWord_fields w).symm
  rw [hw, decodeOp_pushRxWord, ← hw]

/-- Settles O6: the agent has a step and the word is not RXI's own, so the turn executes its operation. -/
theorem stepRunsTheIssuedInstruction : Obligations.StepRunsTheIssuedInstruction := by
  intro s a w i rest ht he hi hn
  refine step_of_enabled ht rfl he hi fun ha ⟨hop, hx⟩ => ?_
  have hp : decodeOp w = .ok (.pushRx (fieldD w)) := decodeOp_of_pushRx_fields hop hx
  rcases hn with hn | hn
  · exact hn (fieldD w) (Except.ok.inj (hi.symm.trans hp))
  · exact hn ha

/-- Settles O8: both spellings of the turn are of an agent that is not enabled. -/
theorem disabledInterruptAgentIsHeld : Obligations.DisabledInterruptAgentIsHeld := by
  intro s w rest hr
  refine ⟨fun ht hd => ?_, fun ht hd => ?_⟩
  · rcases ht with ht | ht <;> exact step_of_disabled ht rfl hr (enabled_rxi_eq_false hd)
  · rcases ht with ht | ht <;> exact step_of_disabled ht rfl hr (enabled_txi_eq_false hd)

/-- Settles O11: a turn that is no reset is an agent's. -/
theorem refusedRunTakesNoStep : Obligations.RefusedRunTakesNoStep := by
  intro s why t rest hr ht hne
  obtain ⟨a, w, ha⟩ := asIssue_of_ne_reset hne s
  exact step_of_refused ht ha hr

/-- Settles O24: the wrong agent is refused, and register 15 has no value to read. -/
theorem rdRegFifteenIsRefused : Obligations.RdRegFifteenIsRefused := by
  intro s
  by_cases ha : s.agent = .main
  · exact ⟨.reservedRegister, if_pos ha, fun _ => rfl⟩
  · exact ⟨.wrongAgent, exec_of_agent_ne ha, fun h => absurd h ha⟩

/-! ### Placed words (log 3) -/

theorem withFetchWord_op (s : State) (w : OpWord) : s.withFetchWord 16 w.toNat = placeOpWord w s := by
  simp only [State.withFetchWord, tableEncoding, placeEncoding, BitVec.ofNat_toNat, BitVec.setWidth_eq]

/-- A placed word of MAIN's makes the next turn MAIN issuing it. -/
theorem placeOpWord_main {s : State} {w : OpWord} {i : Instr} (hi : decodeOp w = .ok i) (hm : Instr.agent i = .main) :
    placeOpWord w s = { s with refused := none, turns := .issue .main w :: s.turns } := by
  unfold placeOpWord
  rw [hi]
  split
  case h_1 e => cases e; cases hm
  case h_2 e => cases e; cases hm
  case h_3 => rfl

/-- An operation that is neither `PUSH_RX` nor `TX_READY` is MAIN's (10_state.md R50). -/
theorem agent_eq_main {i : Instr} (hrx : ∀ b, i ≠ .pushRx b) (htx : i ≠ .txReady) : Instr.agent i = .main := by
  cases i with
  | pushRx b => exact absurd rfl (hrx b)
  | txReady => exact absurd rfl htx
  | _ => rfl

/-- Settles O13: by the agent whose turn the placed word is. -/
theorem placedWordRunsNext : Obligations.PlacedWordRunsNext := by
  intro s w i hi
  rw [withFetchWord_op]
  split
  case h_1 b =>
    have hp : placeOpWord w s =
        { s with refused := none, rxie := true, rxline := b :: s.rxline, turns := .receive :: s.turns } := by
      unfold placeOpWord
      rw [hi]
    rw [hp]
    exact step_of_receive rfl rfl rfl rfl
  case h_2 =>
    have hp : placeOpWord w s =
        { s with refused := none, txie := true, txAct := true, turns := .transmitReady :: s.turns } := by
      unfold placeOpWord
      rw [hi]
    rw [hp]
    exact step_of_enabled rfl rfl rfl rfl nofun
  case h_3 hrx htx =>
    rw [placeOpWord_main hi (agent_eq_main hrx htx)]
    exact step_of_enabled rfl rfl rfl hi nofun

end Sys2Proof.Machine

/-! ## The word of an operation (30_encoding.md R81, R82, R85)

A word that decodes is the one the encoder spells: the fields that were checked are zero, and the rest is the operand. -/

namespace Sys2Proof

/-- An operand field with zeros above it holds the whole of `D` (30_encoding.md R83). -/
theorem setWidth_extractLsb'_of_shiftRight {d : Byte} {lo : Nat} (h : d >>> lo = 0#8) :
    (d.extractLsb' 0 lo).setWidth 8 = d := by
  have hd := congrArg BitVec.toNat h
  simp only [BitVec.toNat_ushiftRight, Nat.shiftRight_eq_div_pow, BitVec.toNat_ofNat, Nat.zero_mod] at hd
  apply BitVec.eq_of_toNat_eq
  have hlt : d.toNat < 2 ^ lo := (Nat.div_eq_zero_iff.mp hd).resolve_left (by simp)
  simp only [BitVec.toNat_setWidth, BitVec.extractLsb'_toNat, Nat.shiftRight_zero, Nat.mod_eq_of_lt hlt,
    Nat.mod_eq_of_lt d.isLt]

/-- The word of an operation without a ring select, from its `OP` and `D`. -/
theorem zeroChecked_word {w : OpWord} {op : BitVec 4} {lo : Nat} {i j : Instr} (hop : (fieldOp w).toNat = op.toNat)
    (h : zeroChecked w lo i = .ok j) : w = opWord op 0#4 (fieldD w) ∧ fieldD w >>> lo = 0#8 ∧ j = i := by
  obtain ⟨hx, hd, hj⟩ := zeroChecked_ok h
  refine ⟨?_, hd, hj⟩
  rw [← BitVec.eq_of_toNat_eq hop, ← hx, opWord_fields]

/-- The word of an operation with a ring select, from its `OP`, the ring and `D`. -/
theorem ringChecked_word {w : OpWord} {op : BitVec 4} {lo : Nat} {i j k : Instr} (hop : (fieldOp w).toNat = op.toNat)
    (h : ringChecked w lo i j = .ok k) :
    fieldD w >>> lo = 0#8 ∧ ((w = opWord op 0#4 (fieldD w) ∧ k = i) ∨ (w = opWord op 1#4 (fieldD w) ∧ k = j)) := by
  obtain ⟨hd, ⟨hx, hk⟩ | ⟨hx, hk⟩⟩ := ringChecked_ok h
  · refine ⟨hd, .inl ⟨?_, hk⟩⟩
    rw [← BitVec.eq_of_toNat_eq hop, ← hx, opWord_fields]
  · refine ⟨hd, .inr ⟨?_, hk⟩⟩
    rw [← BitVec.eq_of_toNat_eq hop, ← hx, opWord_fields]

/-- As `zeroChecked_word`, for an operation without an operand. -/
theorem zeroChecked_word_zero {w : OpWord} {op : BitVec 4} {i j : Instr} (hop : (fieldOp w).toNat = op.toNat)
    (h : zeroChecked w 0 i = .ok j) : w = opWord op 0#4 0#8 ∧ j = i := by
  obtain ⟨hw, hd, hj⟩ := zeroChecked_word hop h
  rw [BitVec.ushiftRight_zero] at hd
  rw [hd] at hw
  exact ⟨hw, hj⟩

/-- As `ringChecked_word`, for an operation without an operand. -/
theorem ringChecked_word_zero {w : OpWord} {op : BitVec 4} {i j k : Instr} (hop : (fieldOp w).toNat = op.toNat)
    (h : ringChecked w 0 i j = .ok k) : (w = opWord op 0#4 0#8 ∧ k = i) ∨ (w = opWord op 1#4 0#8 ∧ k = j) := by
  obtain ⟨hd, hc⟩ := ringChecked_word hop h
  rw [BitVec.ushiftRight_zero] at hd
  rwa [hd] at hc

/-- The word of an operation whose operand is a field of `D`, the operand as the decoder reads it. -/
theorem zeroChecked_word_operand {w : OpWord} {op : BitVec 4} {lo : Nat} {i j : Instr}
    (hop : (fieldOp w).toNat = op.toNat) (h : zeroChecked w lo i = .ok j) :
    w = opWord op 0#4 (((fieldD w).extractLsb' 0 lo).setWidth 8) ∧ j = i := by
  obtain ⟨hw, hd, hj⟩ := zeroChecked_word hop h
  rw [setWidth_extractLsb'_of_shiftRight hd]
  exact ⟨hw, hj⟩

/-- An operation word that decodes is the encoding of what it decodes to (30_encoding.md R85). -/
theorem encode_of_decodeOp {w : OpWord} {i : Instr} (h : decodeOp w = .ok i) : encode i = .op w := by
  unfold decodeOp at h
  split at h
  case h_1 hop => obtain ⟨rfl, rfl⟩ := zeroChecked_word_zero (op := 0x0#4) hop h; rfl
  case h_2 hop =>
    obtain ⟨-, ⟨hw, rfl⟩ | ⟨hw, rfl⟩⟩ := ringChecked_word (op := 0x1#4) hop h
    · exact congrArg Encoding.op hw.symm
    · exact congrArg Encoding.op hw.symm
  case h_3 hop => obtain ⟨rfl, rfl⟩ | ⟨rfl, rfl⟩ := ringChecked_word_zero (op := 0x2#4) hop h <;> rfl
  case h_4 hop => obtain ⟨rfl, rfl⟩ | ⟨rfl, rfl⟩ := ringChecked_word_zero (op := 0x3#4) hop h <;> rfl
  case h_5 hop => obtain ⟨rfl, rfl⟩ := zeroChecked_word_zero (op := 0x4#4) hop h; rfl
  case h_6 hop => obtain ⟨rfl, rfl⟩ := zeroChecked_word_zero (op := 0x5#4) hop h; rfl
  case h_7 hop =>
    obtain ⟨hw, -, rfl⟩ := zeroChecked_word (op := 0x6#4) hop h
    exact congrArg Encoding.op hw.symm
  case h_8 hop => obtain ⟨rfl, rfl⟩ := zeroChecked_word_zero (op := 0x7#4) hop h; rfl
  case h_9 hop => obtain ⟨rfl, rfl⟩ := zeroChecked_word_zero (op := 0x8#4) hop h; rfl
  case h_10 hop =>
    obtain ⟨hw, rfl⟩ := zeroChecked_word_operand (op := 0x9#4) hop h
    exact congrArg Encoding.op hw.symm
  case h_11 hop =>
    obtain ⟨hw, rfl⟩ := zeroChecked_word_operand (op := 0xA#4) hop h
    exact congrArg Encoding.op hw.symm
  case h_12 hop =>
    obtain ⟨hw, rfl⟩ := zeroChecked_word_operand (op := 0xB#4) hop h
    exact congrArg Encoding.op hw.symm
  case h_13 => cases h

end Sys2Proof

/-! ## Which operations touch which ring (10_state.md R27, 20_memory.md R60) -/

namespace Sys2Proof.Machine

/-- The ring an operation pushes or pops (10_state.md R27). -/
def Instr.touchedRing : Instr → Option RingSel
  | .pushRx _ | .popRx | .frStep => some .rx
  | .pushTx _ | .popTx | .pump | .txReady => some .tx
  | _ => none

/-- `RX` is pushed by `PUSH_RX` and popped by `POP_RX` and `FR_STEP`. -/
theorem touchedRing_eq_rx {i : Instr} (h : Instr.touchedRing i = some .rx) :
    (∃ b, i = .pushRx b) ∨ i = .popRx ∨ i = .frStep := by
  cases i with
  | pushRx b => exact .inl ⟨b, rfl⟩
  | popRx => exact .inr (.inl rfl)
  | frStep => exact .inr (.inr rfl)
  | _ => cases h

/-- `TX` is pushed by `PUSH_TX` and popped by `POP_TX`, `PUMP` and `TX_READY`. -/
theorem touchedRing_eq_tx {i : Instr} (h : Instr.touchedRing i = some .tx) :
    (∃ b, i = .pushTx b) ∨ i = .popTx ∨ i = .pump ∨ i = .txReady := by
  cases i with
  | pushTx b => exact .inl ⟨b, rfl⟩
  | popTx => exact .inr (.inl rfl)
  | pump => exact .inr (.inr (.inl rfl))
  | txReady => exact .inr (.inr (.inr rfl))
  | _ => cases h

/-- An operation leaves alone every ring but its own. -/
theorem Effect.ring_eq {i : Instr} {s t : State} (h : Effect s i t) {q : RingSel}
    (hq : Instr.touchedRing i ≠ some q) : t.ring q = s.ring q := by
  have hne : ∀ {p}, Instr.touchedRing i = some p → q ≠ p := fun hp e => hq (e ▸ hp)
  cases h with
  | pushRx hp | pushTx hp =>
    have ht := pushRing_ring_of_ne (hne rfl) hp
    exact ht
  | popRx hp | popTx hp => exact popRing_ring_of_ne (hne rfl) hp
  | emptyRx | emptyTx =>
    obtain ⟨k, v, e⟩ := emptyQuery_eq _ s
    rw [e]
    rfl
  | frStepTake k => exact (takeByte_ring _ _ q).trans (State.setRing_ring_of_ne (hne rfl) { s with draws := k } _)
  | txReadySend k | pumpSend k => exact State.setRing_ring_of_ne (hne rfl) { s with draws := k } _
  | marker => exact takeByte_ring _ _ q
  | mnemonic =>
    obtain ⟨f, e⟩ := recognise_eq _ _ s
    rw [e]
    rfl
  | nop | frStepHeld | frStepNone | frAck | frAckNone | frBody | txReadyIdle | pumpBusy | pumpNone | ieWrite
  | clrStatus | rdReg | rdRegReserved => rfl

/-- A word that changes a ring decodes to an operation of that ring, issued by its permitted agent. -/
theorem issueWord_ring_ne {w : OpWord} {s t : State} {q : RingSel} (h : issueWord w s = .next t)
    (hq : t.ring q ≠ s.ring q) :
    ∃ i, decodeOp w = .ok i ∧ s.agent = Instr.agent i ∧ Instr.touchedRing i = some q ∧
      t.agent = s.agent ∧ t.rxline = s.rxline := by
  rcases issueWord_next h with ⟨-, -, rfl⟩ | ⟨i, hi, he⟩
  · exact absurd rfl hq
  · rcases exec_next he with ⟨-, rfl⟩ | ⟨ha, he⟩
    · exact absurd rfl hq
    · obtain ⟨-, hag, hl⟩ := he.frame
      exact ⟨i, hi, ha, by_contra fun hn => hq (he.ring_eq hn), hag, hl⟩

/-- A step that changes a ring, and is no reset, executes an operation of that ring, issued by its permitted agent; the
line input it leaves is that of `step_next`. -/
theorem step_ring_ne {s t : State} {q : RingSel} (h : step s = .next t) (hr : ∀ rest, s.turns ≠ .reset :: rest)
    (hq : t.ring q ≠ s.ring q) :
    ∃ tn rest w i, s.turns = tn :: rest ∧ tn.asIssue s = some (Instr.agent i, w) ∧ decodeOp w = .ok i ∧
      Instr.touchedRing i = some q ∧ t.agent = Instr.agent i ∧
      (t.rxline = s.rxline ∧ (Instr.agent i = .rxi → ¬(fieldOp w = 0x1#4 ∧ fieldX w = 0#4)) ∨
        Instr.agent i = .rxi ∧ ∃ b, s.rxline = b :: t.rxline ∧ w = pushRxWord b) := by
  rcases step_next h with ⟨-, rfl⟩ | ⟨rest, ht, -⟩ | ⟨tn, rest, a, w, ht, hi, -, h3⟩
  · exact absurd rfl hq
  · exact absurd ht (hr rest)
  · rcases h3 with ⟨-, rfl⟩ | ⟨-, -, rfl⟩ | ⟨-, line, hline, hw⟩
    · exact absurd rfl hq
    · exact absurd rfl hq
    · obtain ⟨i, hd, ha, htr, hag, hl⟩ := issueWord_ring_ne (q := q) hw hq
      have ha : a = Instr.agent i := ha
      have hl : t.rxline = line := hl
      subst ha hl
      exact ⟨tn, rest, w, i, ht, hi, hd, htr, hag, hline⟩

/-- A turn that is MAIN's and decodes to an operation is the issue of the operation's word. -/
theorem turn_of_main {s : State} {tn : Turn} {w v : OpWord} {i : Instr} (ha : tn.asIssue s = some (.main, w))
    (hd : decodeOp w = .ok i) (hv : encode i = .op v) : tn = .issue .main v := by
  obtain rfl : v = w := Encoding.op.inj (hv.symm.trans (encode_of_decodeOp hd))
  exact asIssue_main ha

/-- `PUSH_TX b` is the word `0x1100 | b` (40_ring_buffer.md R103). -/
theorem encode_pushTx (b : Byte) : encode (.pushTx b) = .op (BitVec.ofNat 16 (0x1100 + b.toNat)) := by
  refine congrArg Encoding.op (BitVec.eq_of_toNat_eq ?_)
  have := b.isLt
  rw [opWord_toNat, BitVec.toNat_ofNat]
  simp only [BitVec.toNat_ofNat]
  omega

/-- A step changes `RX` as RXI's receive step, or as MAIN's `POP_RX` or `FR_STEP`. -/
theorem step_rx_ne {s t : State} (h : step s = .next t) (hr : ∀ rest, s.turns ≠ .reset :: rest) (hq : t.rx ≠ s.rx) :
    (t.agent = .rxi ∧ t.rxline = s.rxline.tail) ∨
    ∃ rest, s.turns = .issue .main 0x2000#16 :: rest ∨ s.turns = .issue .main 0x4000#16 :: rest := by
  obtain ⟨tn, rest, w, i, ht, ha, hd, htr, hag, hline⟩ := step_ring_ne (q := .rx) h hr hq
  rcases touchedRing_eq_rx htr with ⟨b, rfl⟩ | rfl | rfl
  · rcases hline with ⟨-, hn⟩ | ⟨-, c, hl, -⟩
    · exact absurd (decodeOp_pushRx_fields hd) (hn rfl)
    · exact .inl ⟨hag, by rw [hl]; rfl⟩
  · exact .inr ⟨rest, .inl (by rw [ht, turn_of_main ha hd rfl]; rfl)⟩
  · exact .inr ⟨rest, .inr (by rw [ht, turn_of_main ha hd rfl]; rfl)⟩

/-- A step changes `TX` as TXI's, or as MAIN's `POP_TX`, `PUMP` or `PUSH_TX`. -/
theorem step_tx_ne {s t : State} (h : step s = .next t) (hr : ∀ rest, s.turns ≠ .reset :: rest) (hq : t.tx ≠ s.tx) :
    t.agent = .txi ∨
    ∃ (rest : List Turn) (b : Byte), s.turns = .issue .main 0x2100#16 :: rest ∨
      s.turns = .issue .main 0x8000#16 :: rest ∨
      s.turns = .issue .main (BitVec.ofNat 16 (0x1100 + b.toNat)) :: rest := by
  obtain ⟨tn, rest, w, i, ht, ha, hd, htr, hag, -⟩ := step_ring_ne (q := .tx) h hr hq
  rcases touchedRing_eq_tx htr with ⟨b, rfl⟩ | rfl | rfl | rfl
  · exact .inr ⟨rest, b, .inr (.inr (by rw [ht, turn_of_main ha hd (encode_pushTx b)]))⟩
  · exact .inr ⟨rest, 0, .inl (by rw [ht, turn_of_main ha hd rfl]; rfl)⟩
  · exact .inr ⟨rest, 0, .inr (.inl (by rw [ht, turn_of_main ha hd rfl]; rfl))⟩
  · exact .inl hag

/-- Settles O57: a step changes a ring only through an operation that touches it, issued by its permitted agent. -/
theorem ringsAreTouchedOnlyByTheirOperations : Obligations.RingsAreTouchedOnlyByTheirOperations :=
  fun _ _ h hr => ⟨step_rx_ne h hr, step_tx_ne h hr⟩

end Sys2Proof.Machine

/-! ## First in, first out (20_memory.md R69, R70)

The law as an invariant of a ring with its history, kept by every push and every pop. -/

namespace Sys2Proof.Machine

/-- A full ring is not empty (10_state.md R23). -/
theorem Ring.isEmpty_of_full {q : Ring} (h : q.full = true) : q.isEmpty = false := by
  simp [Ring.isEmpty, h]

namespace RingHistory

/-- The ring is one that 10_state.md R25 allows, and the bytes that left it, then the unread bytes, are the bytes
pushed (20_memory.md R69). -/
def InOrder (n : Nat) (h : RingHistory) : Prop :=
  h.ring.ok n ∧ h.left.map Prod.fst ++ h.ring.unread n = h.pushed

variable {n : Nat} {h : RingHistory}

/-- A push records the new byte, and from a full ring the oldest unread byte as overwritten (40_ring_buffer.md R101). -/
theorem act_push (hok : h.ring.ok n) (b : Byte) :
    h.act n (.push b) = some
      { ring := h.ring.pushed n b
        pushed := h.pushed ++ [b]
        left := if h.ring.full then h.left ++ [(h.ring.mem.read h.ring.rd, false)] else h.left } := by
  simp only [act, Ring.push_eq hok]
  cases h.ring.full <;> rfl

theorem act_pop_of_empty (he : h.ring.isEmpty = true) : h.act n .pop = some h := if_pos he

/-- A pop of a ring that is not empty records the oldest unread byte as returned (40_ring_buffer.md R104). -/
theorem act_pop_of_nonempty (hok : h.ring.ok n) (he : h.ring.isEmpty = false) :
    h.act n .pop = some
      { h with ring := h.ring.popped n, left := h.left ++ [(h.ring.mem.read h.ring.rd, true)] } := by
  simp only [act, he, Ring.pop_eq hok, Bool.false_eq_true, if_false]

theorem inOrder_start (hn : 1 ≤ n) : start.InOrder n := by
  have hok : start.ring.ok n := Ring.emptied_ok hn ⟨.nil, nofun⟩ nofun
  exact ⟨hok, Ring.unread_eq_nil hok rfl⟩

/-- A push keeps the order: an overwritten byte moves from the front of the unread bytes to the end of those that
left. -/
theorem InOrder.push (hi : h.InOrder n) (b : Byte) : ∃ h', h.act n (.push b) = some h' ∧ h'.InOrder n := by
  obtain ⟨hok, hord⟩ := hi
  refine ⟨_, act_push hok b, Ring.pushed_ok hok b, ?_⟩
  simp only [Ring.pushed_unread hok, ← hord]
  cases hf : h.ring.full with
  | true => simp [Ring.unread_eq_cons hok (Ring.isEmpty_of_full hf)]
  | false => simp

/-- A pop keeps the order: a returned byte moves from the front of the unread bytes to the end of those that left. -/
theorem InOrder.pop (hi : h.InOrder n) : ∃ h', h.act n .pop = some h' ∧ h'.InOrder n := by
  cases he : h.ring.isEmpty with
  | true => exact ⟨h, act_pop_of_empty he, hi⟩
  | false =>
    obtain ⟨hok, hord⟩ := hi
    refine ⟨_, act_pop_of_nonempty hok he, Ring.popped_ok hok, ?_⟩
    simp [← hord, Ring.unread_eq_cons hok he]

/-- No sequence of pushes and pops faults, and every one keeps the order. -/
theorem InOrder.acts (hi : h.InOrder n) (as : List RingAct) : ∃ h', h.acts n as = some h' ∧ h'.InOrder n := by
  induction as generalizing h with
  | nil => exact ⟨h, rfl, hi⟩
  | cons a rest ih =>
    have hstep : ∃ h', h.act n a = some h' ∧ h'.InOrder n := by
      cases a with
      | push b => exact hi.push b
      | pop => exact hi.pop
    obtain ⟨h', ha, hi'⟩ := hstep
    simpa only [RingHistory.acts, ha] using ih hi'

/-- The occupancy and the bytes that left, returned and overwritten, add up to the bytes pushed (20_memory.md R69). -/
theorem InOrder.count_add_left (hi : h.InOrder n) :
    h.ring.count n + (h.left.filter fun x => x.2).length + (h.left.filter fun x => !x.2).length = h.pushed.length := by
  have hlen := congrArg List.length hi.2
  rw [List.length_append, List.length_map, Ring.unread_length] at hlen
  have hsplit := List.length_eq_length_filter_add (l := h.left) fun x => x.2
  omega

end RingHistory

/-- Settles O32: `RingHistory.InOrder` holds of the reset ring and every push and pop keeps it. -/
theorem ringHistoryIsFirstInFirstOut : Obligations.RingHistoryIsFirstInFirstOut := by
  intro n as hn
  obtain ⟨h, ha, hi⟩ := (RingHistory.inOrder_start hn).acts as
  have ⟨hok, hord⟩ := hi
  exact ⟨h, ha, hord, hi.count_add_left, Ring.count_le hok⟩

end Sys2Proof.Machine

/-! ## Operations that test a ring for emptiness (20_memory.md R66, 70_reset_and_hazards.md R252)

Each of them is one shape, `State.tested`: what it does where the ring is seen empty, and what it does where it is
not. -/

namespace Sys2Proof.Machine

/-- The outcome of testing a ring: one state where it is seen empty, another where it is not (20_memory.md R66). -/
def State.tested (q : RingSel) (idle act : State → State) (s : State) : State :=
  if (emptySeen q s).1 then idle (emptySeen q s).2 else act (emptySeen q s).2

/-- The state in a build with exact emptiness tests. -/
def State.exactTests (s : State) : State := { s with cfg := { s.cfg with staleEmpty := false } }

/-- A next state with the build parameters of `s`, and one free draw made since (log 6). -/
def State.drawnFrom (s u : State) : State := { u with cfg := s.cfg, draws := s.draws + 1 }

section

variable {q : RingSel} {idle act : State → State} {s : State}

/-- A test of a ring that is not empty is a free draw in a build with `STALE_EMPTY = true` (20_memory.md R66). -/
theorem emptySeen_of_stale (he : (s.ring q).isEmpty = false) (hs : s.cfg.staleEmpty = true) :
    emptySeen q s = (Config.staleDraw s.draws, s.drawnFrom s) := by
  unfold emptySeen
  simp only [he, hs, Bool.false_eq_true, if_false, if_true]
  rfl

theorem State.tested_of_empty (he : (s.ring q).isEmpty = true) : s.tested q idle act = idle s := by
  simp [State.tested, emptySeen_of_empty he]

theorem State.tested_of_exact (he : (s.ring q).isEmpty = false) (hs : s.cfg.staleEmpty = false) :
    s.tested q idle act = act s := by
  simp [State.tested, emptySeen_of_exact he hs]

/-- Whatever the draw, a stale test of a ring that is not empty takes one of the two ways. -/
theorem State.tested_of_stale (he : (s.ring q).isEmpty = false) (hs : s.cfg.staleEmpty = true) :
    s.tested q idle act = act (s.drawnFrom s) ∨ s.tested q idle act = idle (s.drawnFrom s) := by
  unfold State.tested
  rw [emptySeen_of_stale he hs]
  cases Config.staleDraw s.draws with
  | true => exact .inr rfl
  | false => exact .inl rfl

theorem State.exactTests_ring (s : State) (q : RingSel) : s.exactTests.ring q = s.ring q := by
  cases q <;> rfl

end

/-! ### The five operations -/

/-- What an `FR_STEP` does with a ring that is not seen empty (42_framer.md R141). -/
def State.framedByte (s : State) : State := takeByte (s.rx.mem.read s.rx.rd) s.tookRx

section

variable {s : State}

/-- The query of either ring (40_ring_buffer.md R107). -/
theorem emptyQuery_eq_tested (q : RingSel) (s : State) :
    emptyQuery q s = s.tested q (·.withResult 0x01#8) (·.withResult 0x00#8) := by
  unfold emptyQuery State.tested
  rcases emptySeen q s with ⟨_ | _, u⟩ <;> rfl

theorem exec_emptyRx (ha : s.agent = .main) :
    exec .emptyRx s = .next (s.tested .rx (·.withResult 0x01#8) (·.withResult 0x00#8)) := by
  show execEmptyRx s = _
  rw [execEmptyRx, issuedBy_of_agent ha, emptyQuery_eq_tested]

theorem exec_emptyTx (ha : s.agent = .main) :
    exec .emptyTx s = .next (s.tested .tx (·.withResult 0x01#8) (·.withResult 0x00#8)) := by
  show execEmptyTx s = _
  rw [execEmptyTx, issuedBy_of_agent ha, emptyQuery_eq_tested]

/-- `FR_STEP` outside `AD` (42_framer.md R141). -/
theorem exec_frStep (ha : s.agent = .main) (had : s.fr.fst ≠ .ad) (hok : s.rx.ok s.cfg.n) :
    exec .frStep s = .next (s.tested .rx (·.withResult 0x00#8) (·.framedByte)) := by
  show execFrStep s = _
  rw [execFrStep, issuedBy_of_agent ha, if_neg had]
  unfold State.tested
  rcases hu : emptySeen .rx s with ⟨_ | _, u⟩ <;> obtain ⟨k, rfl, he⟩ := emptySeen_eq hu
  · simp only [popRing_of_nonempty (q := .rx) (s := { s with draws := k }) hok (he rfl)]
    rfl
  · rfl

/-- `TX_READY` (41_transport.md R122). -/
theorem exec_txReady (ha : s.agent = .txi) (hok : s.tx.ok s.cfg.n) :
    exec .txReady s = .next (s.tested .tx (fun s => State.withResult { s with txAct := false } 0x00#8)
      (·.sentTx.withResult 0x00#8)) := by
  show execTxReady s = _
  rw [execTxReady, issuedBy_of_agent ha]
  unfold State.tested
  rcases hu : emptySeen .tx s with ⟨_ | _, u⟩ <;> obtain ⟨k, rfl, he⟩ := emptySeen_eq hu
  · simp only [sendByte_eq (s := { s with draws := k }) hok (he rfl)]
    rfl
  · rfl

/-- `PUMP` with an idle transmitter (43_tx_frame_pump.md R170). -/
theorem exec_pump (ha : s.agent = .main) (hact : s.txAct = false) (hok : s.tx.ok s.cfg.n) :
    exec .pump s = .next (s.tested .tx (·.withResult 0x00#8)
      (fun s => State.withResult { s.sentTx with txAct := true } 0x01#8)) := by
  show execPump s = _
  rw [execPump, issuedBy_of_agent ha, if_neg (Bool.eq_false_iff.mp hact)]
  unfold State.tested
  rcases hu : emptySeen .tx s with ⟨_ | _, u⟩ <;> obtain ⟨k, rfl, he⟩ := emptySeen_eq hu
  · simp only [sendByte_eq (s := { s with draws := k }) hok (he rfl)]
    rfl
  · rfl

/-! On an empty ring no index is used, so no ring invariant is needed. -/

theorem exec_emptyRx_of_empty (ha : s.agent = .main) (he : s.rx.isEmpty = true) :
    exec .emptyRx s = .next (s.withResult 0x01#8) := by
  rw [exec_emptyRx ha, State.tested_of_empty (q := .rx) he]

theorem exec_emptyTx_of_empty (ha : s.agent = .main) (he : s.tx.isEmpty = true) :
    exec .emptyTx s = .next (s.withResult 0x01#8) := by
  rw [exec_emptyTx ha, State.tested_of_empty (q := .tx) he]

theorem exec_frStep_of_empty (ha : s.agent = .main) (he : s.rx.isEmpty = true) :
    exec .frStep s = .next (s.withResult 0x00#8) := by
  show execFrStep s = _
  rw [execFrStep, issuedBy_of_agent ha, emptySeen_of_empty (q := .rx) he]
  split <;> rfl

theorem exec_txReady_of_empty (ha : s.agent = .txi) (he : s.tx.isEmpty = true) :
    exec .txReady s = .next (State.withResult { s with txAct := false } 0x00#8) := by
  show execTxReady s = _
  rw [execTxReady, issuedBy_of_agent ha, emptySeen_of_empty (q := .tx) he]

theorem exec_pump_of_empty (ha : s.agent = .main) (he : s.tx.isEmpty = true) :
    exec .pump s = .next (s.withResult 0x00#8) := by
  show execPump s = _
  rw [execPump, issuedBy_of_agent ha, emptySeen_of_empty (q := .tx) he]
  split <;> rfl

/-! ### A stale test delays, and does nothing else -/

/-- The framer's arms read neither the draw counter nor `STALE_EMPTY` (42_framer.md R141 to R145). -/
theorem takeByte_drawnFrom (b : Byte) (s u : State) (hc : u.cfg = s.exactTests.cfg) :
    takeByte b (s.drawnFrom u) = s.drawnFrom (takeByte b u) := by
  have hgrammar : (s.drawnFrom u).cfg.grammar = u.cfg.grammar := by rw [hc]; rfl
  have hok : frameOK (s.drawnFrom u).cfg (s.drawnFrom u).fr = frameOK u.cfg u.fr := by rw [hc]; rfl
  have hcollect : (s.drawnFrom u).fr.collect (s.drawnFrom u).cfg b = u.fr.collect u.cfg b := by rw [hc]; rfl
  have hfst : (s.drawnFrom u).fr.fst = u.fr.fst := rfl
  unfold takeByte
  rw [hfst, hgrammar]
  cases u.fr.fst with
  | ad => rfl
  | ah => cases byteClass u.cfg.grammar b <;> rfl
  | ab =>
    cases byteClass u.cfg.grammar b with
    | hdr => rfl
    | data => exact congrArg (fun f => ((s.drawnFrom u).setFramer f).withResult _) hcollect
    | endm =>
      unfold closeFrame
      rw [hok]
      cases frameOK u.cfg u.fr <;> rfl

theorem State.framedByte_drawnFrom (s : State) :
    (s.drawnFrom s).framedByte = s.drawnFrom s.exactTests.framedByte :=
  takeByte_drawnFrom _ s s.exactTests.tookRx rfl

/-- With `STALE_EMPTY = true`, an operation that tests a ring that is not empty does what it does with exact tests, or
what it does on an empty ring (70_reset_and_hazards.md R252). -/
theorem exec_of_stale {i : Instr} {q : RingSel} {idle act : State → State} (hs : s.cfg.staleEmpty = true)
    (he : (s.ring q).isEmpty = false) (h : exec i s = .next (s.tested q idle act))
    (hexact : exec i s.exactTests = .next (s.exactTests.tested q idle act))
    (hact : act (s.drawnFrom s) = s.drawnFrom (act s.exactTests)) :
    ∃ t, exec i s = .next t ∧
      ((∃ u, exec i s.exactTests = .next u ∧ t = s.drawnFrom u) ∨ t = idle (s.drawnFrom s)) := by
  refine ⟨_, h, (State.tested_of_stale he hs).imp_left fun ht => ⟨act s.exactTests, ?_, ht.trans hact⟩⟩
  rw [hexact, State.tested_of_exact (by rwa [State.exactTests_ring]) rfl]

end

/-- Settles O31: a stale test takes one of the two ways of `State.tested`, and an empty ring leaves no draw to make. -/
theorem staleEmptinessOnlyDelays : Obligations.StaleEmptinessOnlyDelays := by
  intro s hs
  refine ⟨fun ha hok he => ⟨?_, fun had => ?_⟩, fun ha hok he => ⟨?_, fun hact => ?_⟩, fun ha hok he => ?_,
    fun ha he => ⟨?_, ?_⟩, fun ha he => ⟨?_, ?_⟩, fun ha he => ?_⟩
  · exact exec_of_stale (q := .rx) hs he (exec_emptyRx ha) (exec_emptyRx (s := s.exactTests) ha) rfl
  · exact exec_of_stale (q := .rx) hs he (exec_frStep ha had hok) (exec_frStep (s := s.exactTests) ha had hok)
      s.framedByte_drawnFrom
  · exact exec_of_stale (q := .tx) hs he (exec_emptyTx ha) (exec_emptyTx (s := s.exactTests) ha) rfl
  · exact exec_of_stale (q := .tx) hs he (exec_pump ha hact hok) (exec_pump (s := s.exactTests) ha hact hok) rfl
  · exact exec_of_stale (q := .tx) hs he (exec_txReady ha hok) (exec_txReady (s := s.exactTests) ha hok) rfl
  · exact ⟨_, exec_emptyRx_of_empty (s := s.exactTests) ha he, exec_emptyRx_of_empty ha he⟩
  · exact ⟨_, exec_frStep_of_empty (s := s.exactTests) ha he, exec_frStep_of_empty ha he⟩
  · exact ⟨_, exec_emptyTx_of_empty (s := s.exactTests) ha he, exec_emptyTx_of_empty ha he⟩
  · exact ⟨_, exec_pump_of_empty (s := s.exactTests) ha he, exec_pump_of_empty ha he⟩
  · exact ⟨_, exec_txReady_of_empty (s := s.exactTests) ha he, exec_txReady_of_empty ha he⟩

end Sys2Proof.Machine

/-! ## Decoding and encoding are inverse (30_encoding.md R80 to R87)

The checks of the decoder read as facts about the three fields, in both directions: a word put together from its fields
passes, and a word that is rejected breaks one of them. -/

namespace Sys2Proof

/-- An operand placed in `D` leaves the bits above its field zero (30_encoding.md R82, R83). -/
theorem setWidth_ushiftRight_eq_zero {n : Nat} (v : BitVec n) : v.setWidth 8 >>> n = 0#8 := by
  apply BitVec.eq_of_toNat_eq
  have hv : v.toNat % 2 ^ 8 < 2 ^ n := (Nat.mod_le _ _).trans_lt v.isLt
  simp only [BitVec.toNat_ushiftRight, BitVec.toNat_setWidth, Nat.shiftRight_eq_div_pow, Nat.div_eq_of_lt hv,
    BitVec.toNat_ofNat, Nat.zero_mod]

/-- An operand placed in `D` is read back from its field (30_encoding.md R83). -/
theorem extractLsb'_setWidth_eq_self {n : Nat} (hn : n ≤ 8) (v : BitVec n) : (v.setWidth 8).extractLsb' 0 n = v := by
  rw [BitVec.extractLsb'_setWidth_of_le (by omega), BitVec.extractLsb'_eq_self]

/-- A word with `X` 0 and zeros above the operand passes (30_encoding.md R82). -/
theorem zeroChecked_opWord {op : BitVec 4} {d : Byte} {lo : Nat} (hd : d >>> lo = 0#8) (i : Instr) :
    zeroChecked (opWord op 0#4 d) lo i = .ok i := by
  simp [zeroChecked, hd]

/-- A word whose `X` is a ring select, with zeros above the operand, passes (30_encoding.md R82). -/
theorem ringChecked_opWord {op : BitVec 4} {d : Byte} {lo : Nat} (hd : d >>> lo = 0#8) (i j : Instr) :
    ringChecked (opWord op 0#4 d) lo i j = .ok i ∧ ringChecked (opWord op 1#4 d) lo i j = .ok j := by
  simp [ringChecked, hd]

/-- An instruction's operation word decodes to it: `OP` selects its row, and the row's check passes. -/
theorem decodeOp_of_encode {i : Instr} {w : OpWord} (h : encode i = .op w) : decodeOp w = .ok i := by
  cases i with
  | nop | frStep | frAck | txReady | pump =>
    cases h
    simp [decodeOp, zeroChecked_opWord]
  | frBody k =>
    cases h
    simp [decodeOp, zeroChecked_opWord, BitVec.ushiftRight_eq_zero]
  | ieWrite v | clrStatus v | rdReg v =>
    cases h
    simp [decodeOp, zeroChecked_opWord, setWidth_ushiftRight_eq_zero, extractLsb'_setWidth_eq_self]
  | popRx | popTx | emptyRx | emptyTx =>
    cases h
    simp [decodeOp, ringChecked_opWord]
  | pushRx b | pushTx b =>
    cases h
    simp [decodeOp, ringChecked_opWord, BitVec.ushiftRight_eq_zero]
  | _ => cases h

/-- An instruction's marker byte decodes to it (30_encoding.md R86). -/
theorem decodeWire_of_encode {i : Instr} {b : Byte} (h : encode i = .wire b) : decodeWire b = .ok i := by
  cases i with
  | headerA | endA | headerB | endB => cases h; rfl
  | _ => cases h

/-- An instruction's mnemonic pattern decodes to it (30_encoding.md R87). -/
theorem decodeMnemonic_of_encode {i : Instr} {p : Pattern} (h : encode i = .mnemonic p) : decodeMnemonic p = .ok i := by
  cases i with
  | mnemGoo | mnemEnd | mnemSpd | mnemAlt | mnemMan | mnemLed => cases h; rfl
  | _ => cases h

/-- Settles O2, for each of the three kinds of bits an instruction can be spelled in. -/
theorem decodeEncodeRoundTrip : Obligations.DecodeEncodeRoundTrip := by
  intro i
  cases h : encode i with
  | op w => exact decodeOp_of_encode h
  | wire b => exact decodeWire_of_encode h
  | mnemonic p => exact decodeMnemonic_of_encode h

/-- A wire byte that decodes is the marker it decodes to (30_encoding.md R86). -/
theorem encode_of_decodeWire {b : Byte} {i : Instr} (h : decodeWire b = .ok i) : encode i = .wire b := by
  unfold decodeWire at h
  split_ifs at h with hb hb hb hb <;> cases h <;> rw [hb] <;> rfl

/-- Three bytes that decode are the pattern of the mnemonic they decode to (30_encoding.md R87). -/
theorem encode_of_decodeMnemonic {p : Pattern} {i : Instr} (h : decodeMnemonic p = .ok i) : encode i = .mnemonic p := by
  unfold decodeMnemonic at h
  split_ifs at h with hp hp hp hp hp hp <;> cases h <;> rw [hp] <;> rfl

/-- Settles O3: the decoder checks every bit of each of the three kinds of bits. -/
theorem encodingIsTheOnlySpelling : Obligations.EncodingIsTheOnlySpelling := by
  intro e i h
  cases e with
  | op w => exact encode_of_decodeOp h
  | wire b => exact encode_of_decodeWire h
  | mnemonic p => exact encode_of_decodeMnemonic h

/-! ### Reserved words (30_encoding.md R82, R84) -/

/-- Bits of `D` from `lo` up are set exactly if `D` is at least `2 ^ lo`. -/
theorem fieldD_ushiftRight_ne_zero_iff (w : OpWord) (lo : Nat) : fieldD w >>> lo ≠ 0#8 ↔ 2 ^ lo ≤ w.toNat % 256 := by
  rw [ne_eq, BitVec.toNat_eq, BitVec.toNat_ushiftRight, Nat.shiftRight_eq_div_pow, fieldD_toNat]
  simp [Nat.div_eq_zero_iff]

/-- What an operation without a ring select rejects (30_encoding.md R82). -/
theorem zeroChecked_eq_none_iff (w : OpWord) (lo : Nat) (i : Instr) :
    (zeroChecked w lo i).toOption = none ↔ w.toNat / 256 % 16 ≠ 0 ∨ 2 ^ lo ≤ w.toNat % 256 := by
  have hx : fieldX w ≠ 0#4 ↔ w.toNat / 256 % 16 ≠ 0 := by
    rw [ne_eq, BitVec.toNat_eq, fieldX_toNat]; rfl
  rw [← hx, ← fieldD_ushiftRight_ne_zero_iff]
  unfold zeroChecked
  split_ifs with h1 h2 <;> simp_all [Except.toOption]

/-- What an operation with a ring select rejects (30_encoding.md R82). -/
theorem ringChecked_eq_none_iff (w : OpWord) (lo : Nat) (i j : Instr) :
    (ringChecked w lo i j).toOption = none ↔ 2 ≤ w.toNat / 256 % 16 ∨ 2 ^ lo ≤ w.toNat % 256 := by
  have hx : fieldX w >>> 1 ≠ 0#4 ↔ 2 ≤ w.toNat / 256 % 16 := by
    rw [ne_eq, BitVec.toNat_eq, BitVec.toNat_ushiftRight, Nat.shiftRight_eq_div_pow, fieldX_toNat]
    simp only [BitVec.toNat_ofNat]
    omega
  rw [← hx, ← fieldD_ushiftRight_ne_zero_iff]
  unfold ringChecked
  split_ifs with h1 h2 h3 <;> simp_all [Except.toOption]

/-- Settles O4: `OP` selects the row, and the row's check rejects by `X` and `D`. -/
theorem reservedWordsAreThoseWithNonzeroReservedFields : Obligations.ReservedWordsAreThoseWithNonzeroReservedFields := by
  intro w op x d
  have hw := w.isLt
  unfold decodeOp
  rw [fieldOp_toNat]
  split
  case h_13 =>
    have hop : 12 ≤ op := by simp only [imp_false] at *; omega
    exact iff_of_true rfl (.inl hop)
  case h_2 hop | h_3 hop | h_4 hop =>
    rw [ringChecked_eq_none_iff]
    omega
  all_goals
    rw [zeroChecked_eq_none_iff]
    omega

/-! ### Words of the table -/

/-- The bits of a row's encoding are read as the row's instruction, whatever the width of the row. -/
theorem decodeTableWord_of_encode {nbits w : Nat} {i : Instr} (h : tableEncoding nbits w = some (encode i)) :
    decodeTableWord nbits w = some i := by
  have hd : decode (encode i) = .ok i := decodeEncodeRoundTrip i
  simp only [decodeTableWord, h, hd, Except.toOption]

/-- Settles O1: twelve words are encodings, and five are reserved: by `D`, by the ring select in `X`, by the bits of `D`
above the operand, and by `OP`. -/
theorem writtenWordsDecode : Obligations.WrittenWordsDecode := by
  have reserved := fun w => (reservedWordsAreThoseWithNonzeroReservedFields w).mpr
  refine ⟨?_, ?_, ?_, ?_, ?_, ?_, ?_, ?_, ?_, ?_, ?_, ?_, ?_⟩
  case refine_13 =>
    exact ⟨reserved 0x2001#16 (by decide), reserved 0x1200#16 (by decide), reserved 0x9004#16 (by decide),
      reserved 0xA020#16 (by decide), reserved 0xC000#16 (by decide)⟩
  all_goals exact decodeTableWord_of_encode rfl

end Sys2Proof

/-! ## The rows of the wire encoding (30_encoding.md R86, R87; log 11, log 12) -/

namespace Sys2Proof.Machine

/-! ### What the framer does with a byte of each class

One state per column of the framer's table, over its three states; MAIN is the agent of a framing error. -/

/-- After a byte of class `HDR` (42_framer.md R142, R144, R149). -/
def State.headerTaken (s : State) : State :=
  match s.fr.fst with
  | .ah => { s with fr := s.fr.cleared .ab, result := some 0x01#8 }
  | .ab => { s with
      fr := s.fr.cleared .ab, status := s.status ||| 0b10000#5
      evh := s.evh ++ [⟨.framingRestart s.fr.bodyLen, .main⟩], result := some 0x03#8 }
  | .ad => { s with result := some 0x00#8 }

/-- After a byte of class `ENDM` (42_framer.md R142, R143, R149). -/
def State.endTaken (s : State) : State :=
  match s.fr.fst with
  | .ah => { s with result := some 0x01#8 }
  | .ab =>
    if frameOK s.cfg s.fr then { s with fr := { s.fr with fst := .ad }, result := some 0x05#8 }
    else { s with
      fr := s.fr.cleared .ah, status := s.status ||| 0b10000#5
      evh := s.evh ++ [⟨.framingLength s.fr.bodyLen s.fr.cmd, .main⟩], result := some 0x03#8 }
  | .ad => { s with result := some 0x00#8 }

/-- After a byte of class `DATA` (42_framer.md R142, R145, R149). -/
def State.dataTaken (b : Byte) (s : State) : State :=
  match s.fr.fst with
  | .ah => { s with result := some 0x01#8 }
  | .ab => { s with fr := s.fr.collect s.cfg b, result := some 0x01#8 }
  | .ad => { s with result := some 0x00#8 }

section
variable {s : State} {b : Byte} {i : Instr}

theorem takeByte_of_hdr (ha : s.agent = .main) (hb : byteClass s.cfg.grammar b = .hdr) :
    takeByte b s = s.headerTaken := by
  unfold takeByte State.headerTaken
  rw [hb]
  cases s.fr.fst with
  | ab => rw [← ha]; rfl
  | _ => rfl

theorem takeByte_of_endm (ha : s.agent = .main) (hb : byteClass s.cfg.grammar b = .endm) :
    takeByte b s = s.endTaken := by
  unfold takeByte State.endTaken
  rw [hb]
  cases s.fr.fst with
  | ab =>
    unfold closeFrame
    rw [← ha]
    cases frameOK s.cfg s.fr <;> rfl
  | _ => rfl

theorem takeByte_of_data (hb : byteClass s.cfg.grammar b = .data) : takeByte b s = s.dataTaken b := by
  unfold takeByte State.dataTaken
  rw [hb]
  cases s.fr.fst <;> rfl

/-! ### The rows -/

/-- A marker's row is the framer taking that byte (log 11). -/
theorem exec_of_encode_wire (ha : s.agent = .main) (h : encode i = .wire b) : exec i s = .next (takeByte b s) := by
  cases i with
  | headerA | endA | headerB | endB => cases h; exact if_pos ha
  | _ => cases h

/-- A mnemonic's row is the entry of the lookup for its pattern (log 12). -/
theorem exec_of_encode_mnemonic {p : Pattern} (ha : s.agent = .main) (h : encode i = .mnemonic p) :
    exec i s = .next (recognise p (lookupCmd p) s) := by
  cases i with
  | mnemGoo | mnemEnd | mnemSpd | mnemAlt | mnemMan | mnemLed => cases h; exact if_pos ha
  | _ => cases h

/-- A marker's row, by the class the build's grammar gives the byte (42_framer.md R140). -/
theorem exec_marker (ha : s.agent = .main) (h : encode i = .wire b) :
    exec i s = .next (match byteClass s.cfg.grammar b with
      | .hdr => s.headerTaken
      | .endm => s.endTaken
      | .data => s.dataTaken b) := by
  rw [exec_of_encode_wire ha h]
  cases hb : byteClass s.cfg.grammar b with
  | hdr => exact congrArg _ (takeByte_of_hdr ha hb)
  | endm => exact congrArg _ (takeByte_of_endm ha hb)
  | data => exact congrArg _ (takeByte_of_data hb)

end

/-- Settles O49: a header byte is of class `HDR` in its own grammar and of class `DATA` in the other. -/
theorem headerBytesOpenOrRestartAFrame : Obligations.HeaderBytesOpenOrRestartAFrame := by
  intro s ha opened asHeader asData
  rw [exec_marker ha (i := .headerA) rfl, exec_marker ha (i := .headerB) rfl]
  cases s.cfg.grammar with
  | A => exact ⟨rfl, rfl⟩
  | B => exact ⟨rfl, rfl⟩

/-- Settles O50: an end byte is of class `ENDM` in its own grammar and of class `DATA` in the other. -/
theorem endBytesCloseOrRejectAFrame : Obligations.EndBytesCloseOrRejectAFrame := by
  intro s ha asEnd asData
  rw [exec_marker ha (i := .endA) rfl, exec_marker ha (i := .endB) rfl]
  cases s.cfg.grammar with
  | A => exact ⟨rfl, rfl⟩
  | B => exact ⟨rfl, rfl⟩

/-- The rows of 30_encoding.md R87: mnemonic, pattern, command type and width. -/
def mnemonicRows : List (Instr × Pattern × Cmd × Byte) :=
  [(.mnemGoo, 0x474F4F#24, .goo, 0x04#8), (.mnemEnd, 0x454E44#24, .cEnd, 0x00#8),
    (.mnemSpd, 0x535044#24, .spd, 0x04#8), (.mnemAlt, 0x414C54#24, .alt, 0x04#8),
    (.mnemMan, 0x4D414E#24, .man, 0x02#8), (.mnemLed, 0x4C4544#24, .led, 0x02#8)]

/-- The encoder, the lookup and the widths of the model are those of the rows. -/
theorem mnemonicRows_spec {i : Instr} {p : Pattern} {c : Cmd} {w : Byte} (h : (i, p, c, w) ∈ mnemonicRows) :
    encode i = .mnemonic p ∧ lookupCmd p = c ∧ c.width = w := by
  have hrows : ∀ r ∈ mnemonicRows,
      encode r.1 = .mnemonic r.2.1 ∧ lookupCmd r.2.1 = r.2.2.1 ∧ r.2.2.1.width = r.2.2.2 := by decide
  exact hrows _ h

/-- A row of the lookup, with the length of the body as a number (42_framer.md R146). -/
theorem recognise_eq_ite (p : Pattern) (c : Cmd) (s : State) :
    recognise p c s =
      if s.cfg.grammar = .A ∧ s.fr.fst = .ab ∧ s.fr.bodyLen.toNat = 3 ∧ s.fr.pattern = p then
        { s with fr := { s.fr with cmd := c, width := c.width } }
      else s := by
  have hlen : s.fr.bodyLen = 0x03#8 ↔ s.fr.bodyLen.toNat = 3 := BitVec.toNat_eq
  simp only [recognise, hlen, State.setFramer]

/-- Settles O52: the row sets the command type the lookup gives its pattern, with that type's width. -/
theorem mnemonicRowsSetCommandAndWidth : Obligations.MnemonicRowsSetCommandAndWidth := by
  intro s i p c w ha hrow
  obtain ⟨hi, rfl, rfl⟩ := mnemonicRows_spec hrow
  rw [exec_of_encode_mnemonic ha hi, recognise_eq_ite]
  rfl

end Sys2Proof.Machine

/-! ## The ring operations (40_ring_buffer.md R101 to R111)

Each pair of operations is one operation with a ring select (R100), so each rule is proved once for both rings. -/

namespace Sys2Proof.Machine

/-- The push of a ring (40_ring_buffer.md R102, R103). -/
def RingSel.pushOp (b : Byte) : RingSel → Instr
  | .rx => .pushRx b
  | .tx => .pushTx b

/-- The pop of a ring (40_ring_buffer.md R105, R106). -/
def RingSel.popOp : RingSel → Instr
  | .rx => .popRx
  | .tx => .popTx

/-- The emptiness query of a ring (40_ring_buffer.md R108, R109). -/
def RingSel.emptyOp : RingSel → Instr
  | .rx => .emptyRx
  | .tx => .emptyTx

theorem Ring.isEmpty_iff {q : Ring} : q.isEmpty = true ↔ q.wr = q.rd ∧ q.full = false := by
  simp [Ring.isEmpty]

theorem Ring.isEmpty_eq_false_iff {q : Ring} : q.isEmpty = false ↔ ¬(q.wr = q.rd ∧ q.full = false) := by
  rw [← Ring.isEmpty_iff, Bool.not_eq_true]

/-- A ring is empty exactly when there is no unread byte (10_state.md R23, R26). -/
theorem Ring.unread_eq_nil_iff {n : Nat} {q : Ring} (h : q.ok n) : q.unread n = [] ↔ q.isEmpty = true := by
  rw [← List.length_eq_zero_iff, Ring.unread_length, Ring.isEmpty_iff_count h]

/-- A ring that obeys 10_state.md R25 and is not full has room. -/
theorem Ring.count_lt_of_not_full {n : Nat} {q : Ring} (h : q.ok n) (hf : q.full = false) : q.count n < n := by
  rw [Ring.count_eq h, hf]
  obtain ⟨hw, hr, -, -, -⟩ := h
  simp only [Bool.false_eq_true, if_false]
  split <;> omega

section

variable {s : State} {q : RingSel}

/-! ### Pushes -/

/-- A push of its permitted agent: from a full ring the oldest unread byte is lost, and that is reported
(40_ring_buffer.md R101). -/
theorem exec_pushOp {b : Byte} (ha : s.agent = Instr.agent (q.pushOp b)) (hok : (s.ring q).ok s.cfg.n) :
    exec (q.pushOp b) s = .next (if (s.ring q).full then
        ((s.setRing q ((s.ring q).pushed s.cfg.n b)).raise
          (.overflow q ((s.ring q).mem.read (s.ring q).rd) b)).withResult 0x00#8
      else (s.setRing q ((s.ring q).pushed s.cfg.n b)).withResult 0x00#8) := by
  have harm : exec (q.pushOp b) s = andThen (pushRing q b s) fun t => .next (t.withResult 0x00#8) := by
    cases q
    · exact if_pos ha
    · exact if_pos ha
  rw [harm, pushRing_eq hok, andThen_next, apply_ite (State.withResult · 0x00#8)]

/-- Settles O26: the ring is `Ring.pushed`. -/
theorem pushRxAppendsAndReportsOverflow : Obligations.PushRxAppendsAndReportsOverflow := by
  intro s b ha hok
  have ⟨_, _, _, hm, _⟩ := hok
  rw [← ha]
  exact ⟨s.rx.pushed s.cfg.n b, rfl, rfl, rfl, fun i => Memory.read_write hm _ i b, Ring.pushed_unread hok b,
    exec_pushOp (q := .rx) ha hok⟩

/-- Settles O27: the ring is `Ring.pushed`. -/
theorem pushTxAppendsAndReportsOverflow : Obligations.PushTxAppendsAndReportsOverflow := by
  intro s b ha hok
  have ⟨_, _, _, hm, _⟩ := hok
  rw [← ha]
  exact ⟨s.tx.pushed s.cfg.n b, rfl, rfl, rfl, fun i => Memory.read_write hm _ i b, Ring.pushed_unread hok b,
    exec_pushOp (q := .tx) ha hok⟩

/-! ### Pops -/

theorem exec_popOp (ha : s.agent = .main) :
    exec q.popOp s = andThen (popRing q s) fun p => .next (p.2.withResult p.1) := by
  cases q
  · exact if_pos ha
  · exact if_pos ha

/-- A pop of an empty ring reports the underflow and answers the sentinel (40_ring_buffer.md R111). -/
theorem exec_popOp_of_empty (ha : s.agent = .main) (he : (s.ring q).isEmpty = true) :
    exec q.popOp s = .next ((s.raise (.underflow q)).withResult 0x00#8) := by
  rw [exec_popOp ha, popRing_of_empty he]
  rfl

/-- A pop of a ring that is not empty answers the byte at the read index (40_ring_buffer.md R104). -/
theorem exec_popOp_of_nonempty (ha : s.agent = .main) (hok : (s.ring q).ok s.cfg.n)
    (he : (s.ring q).isEmpty = false) :
    exec q.popOp s = .next
      ((s.setRing q ((s.ring q).popped s.cfg.n)).withResult ((s.ring q).mem.read (s.ring q).rd)) := by
  rw [exec_popOp ha, popRing_of_nonempty hok he]
  rfl

/-- Settles O28: the byte at the read index is the first unread one (`Ring.unread_eq_cons`). -/
theorem popReturnsTheOldestByte : Obligations.PopReturnsTheOldestByte := by
  intro s ha
  refine ⟨fun hok hne => ?_, fun hok hne => ?_⟩
  · have he := Ring.isEmpty_eq_false_iff.mpr hne
    exact ⟨_, rfl, _, Ring.unread_eq_cons hok he, exec_popOp_of_nonempty (q := .rx) ha hok he⟩
  · have he := Ring.isEmpty_eq_false_iff.mpr hne
    exact ⟨_, rfl, _, Ring.unread_eq_cons hok he, exec_popOp_of_nonempty (q := .tx) ha hok he⟩

/-- Settles O29: raising the underflow of a ring is all a pop of it does when it is empty. -/
theorem popOfEmptyRingUnderflows : Obligations.PopOfEmptyRingUnderflows := by
  intro s ha
  rw [← ha]
  exact ⟨fun hi hf => exec_popOp_of_empty (q := .rx) ha (Ring.isEmpty_iff.mpr ⟨hi, hf⟩),
    fun hi hf => exec_popOp_of_empty (q := .tx) ha (Ring.isEmpty_iff.mpr ⟨hi, hf⟩)⟩

/-! ### Emptiness queries -/

theorem exec_emptyOp (ha : s.agent = .main) :
    exec q.emptyOp s = .next (s.tested q (·.withResult 0x01#8) (·.withResult 0x00#8)) := by
  cases q
  · exact exec_emptyRx ha
  · exact exec_emptyTx ha

/-- The answer of a query where no free draw is made: the tests are exact, or the ring is empty (20_memory.md R66). -/
theorem exec_emptyOp_of_no_draw (ha : s.agent = .main) (hok : (s.ring q).ok s.cfg.n)
    (hd : s.cfg.staleEmpty = false ∨ (s.ring q).unread s.cfg.n = []) :
    exec q.emptyOp s =
      .next (s.withResult (if (s.ring q).unread s.cfg.n = [] then 0x01#8 else 0x00#8)) := by
  rw [exec_emptyOp ha]
  rw [Ring.unread_eq_nil_iff hok] at hd
  simp only [Ring.unread_eq_nil_iff hok]
  cases he : (s.ring q).isEmpty with
  | true => rw [State.tested_of_empty he, if_pos rfl]
  | false =>
    have hexact : s.cfg.staleEmpty = false := hd.resolve_right (Bool.eq_false_iff.mp he)
    rw [State.tested_of_exact he hexact, if_neg Bool.false_ne_true]

/-- Settles O30. -/
theorem emptyQueriesAnswerExactly : Obligations.EmptyQueriesAnswerExactly :=
  fun _ ha => ⟨exec_emptyOp_of_no_draw (q := .rx) ha, exec_emptyOp_of_no_draw (q := .tx) ha⟩

end

/-! ### Pushes alone (40_ring_buffer.md R110)

`List.rtake n` keeps the last `n` entries: a push keeps the last `N` of the unread bytes and the new one, and so does a
sequence of pushes. -/

theorem rtake_rtake_append {α : Type} (n : Nat) (l m : List α) : (l.rtake n ++ m).rtake n = (l ++ m).rtake n := by
  simp [List.rtake_eq_reverse_take_reverse, List.take_append, List.take_take]

/-- The unread bytes after a push are the last `N` of those before with the new one (40_ring_buffer.md R110). -/
theorem Ring.pushed_unread_eq_rtake {n : Nat} {q : Ring} (h : q.ok n) (b : Byte) :
    (q.pushed n b).unread n = (q.unread n ++ [b]).rtake n := by
  have hlen := Ring.unread_length n q
  rw [Ring.pushed_unread h, List.rtake, List.length_append, List.length_singleton, hlen]
  cases hf : q.full with
  | true =>
    have hc : q.count n = n := if_pos hf
    have hne : q.unread n ≠ [] := by
      rw [Ne, Ring.unread_eq_nil_iff h, Ring.isEmpty_of_full hf]
      exact Bool.false_ne_true
    rw [hc, Nat.add_sub_cancel_left, List.drop_one, List.tail_append_of_ne_nil hne, if_pos rfl]
  | false =>
    have hc := Ring.count_lt_of_not_full h hf
    rw [Nat.sub_eq_zero_of_le hc, List.drop_zero, if_neg Bool.false_ne_true]

/-- Pushes alone do not fault, and keep the last `N` of the unread bytes and those pushed. -/
theorem RingHistory.acts_push {n : Nat} {h : RingHistory} (hok : h.ring.ok n) (bs : List Byte) :
    ∃ h', h.acts n (bs.map .push) = some h' ∧ h'.ring.unread n = (h.ring.unread n ++ bs).rtake n := by
  induction bs generalizing h with
  | nil =>
    refine ⟨h, rfl, ?_⟩
    rw [List.append_nil, List.rtake, Ring.unread_length, Nat.sub_eq_zero_of_le (Ring.count_le hok), List.drop_zero]
  | cons b bs ih =>
    obtain ⟨h₁, hact, hring⟩ : ∃ h₁, h.act n (.push b) = some h₁ ∧ h₁.ring = h.ring.pushed n b :=
      ⟨_, RingHistory.act_push hok b, rfl⟩
    obtain ⟨h', hacts, hun⟩ := ih (h := h₁) (hring ▸ Ring.pushed_ok hok b)
    refine ⟨h', ?_, ?_⟩
    · simpa only [List.map_cons, RingHistory.acts, hact] using hacts
    · rw [hun, hring, Ring.pushed_unread_eq_rtake hok, rtake_rtake_append, List.append_assoc, List.singleton_append]

/-- Settles O33: the reset ring has no unread byte to keep. -/
theorem overflowingPushesKeepTheLastBytes : Obligations.OverflowingPushesKeepTheLastBytes := by
  intro n bs hn
  obtain ⟨hok, -⟩ := RingHistory.inOrder_start hn
  have hnil : RingHistory.start.ring.unread n = [] := Ring.unread_eq_nil hok rfl
  obtain ⟨h, hacts, hun⟩ := RingHistory.acts_push hok bs
  rw [hnil, List.nil_append] at hun
  exact ⟨h, hacts, hun⟩

end Sys2Proof.Machine

/-! ## The transmit side and the receive event (41_transport.md R120 to R124)

What an operation does to the line and to the transmitter, said once as `LineMove`; every other operation keeps both
(`Effect.line`). -/

namespace Sys2Proof.Machine

/-- From `s` to `t` the oldest byte of `TX` went to the line (41_transport.md R123). -/
def State.sends (s t : State) : Prop :=
  s.tx.isEmpty = false ∧ t.txd = s.txd ++ [s.tx.mem.read s.tx.rd] ∧ t.tx = s.tx.popped s.cfg.n

/-- What an operation that moves the line or the transmitter does to them (41_transport.md R122, 43_tx_frame_pump.md
R170). -/
inductive LineMove (s t : State) : Instr → Prop
  | idle : t.txAct = false → t.txd = s.txd → t.tx = s.tx → LineMove s t .txReady
  | more : t.txAct = s.txAct → s.sends t → LineMove s t .txReady
  | start : t.txAct = true → s.sends t → LineMove s t .pump

/-- The turn, and the agent and line input of the issue, are no part of what a `LineMove` speaks of. -/
theorem LineMove.of_issuing {i : Instr} {s t : State} {rest : List Turn} {a : Agent} {line : List Byte}
    (h : LineMove ((s.withTurns rest).issuing a line) t i) : LineMove s t i := by
  cases h with
  | idle hact htxd htx => exact .idle hact htxd htx
  | more hact hs => exact .more hact hs
  | start hact hs => exact .start hact hs

/-- A push of either ring sends nothing: a byte leaves `TX` for the line by a pop only (41_transport.md R123). -/
theorem pushRing_line {q : RingSel} {b : Byte} {s t : State} (h : pushRing q b s = .next t) :
    t.txAct = s.txAct ∧ t.txd = s.txd := by
  obtain ⟨r, ⟨-, rfl⟩ | ⟨-, lost, rfl⟩⟩ := pushRing_next h <;> simp

/-- A popped byte is not handed to the line by the pop itself (40_ring_buffer.md R106). -/
theorem popRing_line {q : RingSel} {s : State} {p : Byte × State} (h : popRing q s = .next p) :
    p.2.txAct = s.txAct ∧ p.2.txd = s.txd := by
  rcases popRing_next h with ⟨-, rfl⟩ | ⟨-, rfl⟩ <;> simp

/-- The framer has no part in transmission (42_framer.md R141 to R145). -/
theorem takeByte_line (b : Byte) (s : State) : (takeByte b s).txAct = s.txAct ∧ (takeByte b s).txd = s.txd := by
  rcases takeByte_cases b s with ⟨-, h⟩ | ⟨-, -, h⟩ | ⟨-, -, h⟩ | ⟨-, -, h⟩ | ⟨-, -, -, -, h⟩ | ⟨-, -, -, -, h⟩ |
    ⟨-, -, -, h⟩ <;> simp [h]

/-- An operation keeps the transmitter and the line, or is one of the moves of `TX_READY` and `PUMP`. -/
theorem Effect.line {i : Instr} {s t : State} (h : Effect s i t) :
    (t.txAct = s.txAct ∧ t.txd = s.txd) ∨ LineMove s t i := by
  cases h with
  | txReadyIdle k => exact .inr (.idle rfl rfl rfl)
  | txReadySend k he => exact .inr (.more rfl ⟨he, rfl, rfl⟩)
  | pumpSend k hact he => exact .inr (.start rfl ⟨he, rfl, rfl⟩)
  | pushRx hp | pushTx hp =>
    have ht := pushRing_line hp
    exact .inl ht
  | popRx hp | popTx hp => exact .inl (popRing_line hp)
  | emptyRx | emptyTx =>
    obtain ⟨k, v, e⟩ := emptyQuery_eq _ s
    rw [e]
    exact .inl ⟨rfl, rfl⟩
  | frStepTake | marker => exact .inl (takeByte_line _ _)
  | mnemonic =>
    obtain ⟨f, e⟩ := recognise_eq _ _ s
    rw [e]
    exact .inl ⟨rfl, rfl⟩
  | nop | frStepHeld | frStepNone | frAck | frAckNone | frBody | pumpBusy | pumpNone | ieWrite | clrStatus | rdReg
  | rdRegReserved => exact .inl ⟨rfl, rfl⟩

/-- A word that moves the line or the transmitter decodes to an operation that does, issued by its permitted agent. -/
theorem issueWord_line {w : OpWord} {s t : State} (h : issueWord w s = .next t) :
    (t.txAct = s.txAct ∧ t.txd = s.txd) ∨ ∃ i, decodeOp w = .ok i ∧ s.agent = Instr.agent i ∧ LineMove s t i := by
  rcases issueWord_next h with ⟨-, -, rfl⟩ | ⟨i, hi, he⟩
  · exact .inl ⟨rfl, rfl⟩
  · rcases exec_next he with ⟨-, rfl⟩ | ⟨ha, he⟩
    · exact .inl ⟨rfl, rfl⟩
    · exact he.line.imp_right fun hm => ⟨i, hi, ha, hm⟩

/-- A reset turn resets the block (70_reset_and_hazards.md R240). -/
theorem step_of_reset {s : State} {rest : List Turn} (ht : s.turns = .reset :: rest) :
    step s = .next (s.withTurns rest).blockReset := by
  simp only [step, fetch, ht, perform]

/-- A step other than reset keeps the transmitter and the line, or its turn is that of an agent with a step issuing an
operation that moves them. -/
theorem step_line {s t : State} (h : step s = .next t) (hr : ∀ rest, s.turns ≠ .reset :: rest) :
    (t.txAct = s.txAct ∧ t.txd = s.txd) ∨
    ∃ tn rest w i, s.turns = tn :: rest ∧ tn.asIssue s = some (Instr.agent i, w) ∧ decodeOp w = .ok i ∧
      enabled (Instr.agent i) s = true ∧ LineMove s t i := by
  rcases step_next h with ⟨-, rfl⟩ | ⟨rest, ht, -⟩ | ⟨tn, rest, a, w, ht, hi, -, h3⟩
  · exact .inl ⟨rfl, rfl⟩
  · exact absurd ht (hr rest)
  · rcases h3 with ⟨-, rfl⟩ | ⟨-, -, rfl⟩ | ⟨he, line, -, hw⟩
    · exact .inl ⟨rfl, rfl⟩
    · exact .inl ⟨rfl, rfl⟩
    · refine (issueWord_line hw).imp id fun ⟨i, hd, ha, hm⟩ => ?_
      obtain rfl : a = Instr.agent i := ha
      exact ⟨tn, rest, w, i, ht, hi, hd, he, hm.of_issuing⟩

/-- A turn in which TXI issues `TX_READY` is one of the two spellings of its event (41_transport.md R122). -/
theorem turns_of_txReady {s : State} {tn : Turn} {rest : List Turn} {w : OpWord} (ht : s.turns = tn :: rest)
    (ha : tn.asIssue s = some (.txi, w)) (hd : decodeOp w = .ok .txReady) :
    s.turns = .transmitReady :: rest ∨ s.turns = .issue .txi 0x7000#16 :: rest := by
  obtain rfl : w = txReadyWord := decodeOp_txReady_word hd
  cases tn with
  | transmitReady => exact .inl ht
  | issue => cases ha; exact .inr ht
  | receive | reset => cases ha

/-- RXI has a step exactly with `RXIE` set and a byte waiting (10_state.md R51). -/
theorem enabled_rxi_iff {s : State} :
    enabled .rxi s = true ↔ s.refused = none ∧ s.rxie = true ∧ s.rxline ≠ [] := by
  simp [enabled]

/-- TXI has a step exactly with `TXIE` and `TX_ACT` set (10_state.md R51). -/
theorem enabled_txi_iff {s : State} :
    enabled .txi s = true ↔ s.refused = none ∧ s.txie = true ∧ s.txAct = true := by
  simp [enabled]

/-! ### TX_READY, TX_ACT and TXD -/

/-- Settles O35: the test of `TX` sees it empty where it is, and an exact one sees it not empty where it is not. -/
theorem txReadySendsOrIdles : Obligations.TxReadySendsOrIdles := by
  intro s ha
  refine ⟨fun hempty => exec_txReady_of_empty ha (Ring.isEmpty_iff.mpr hempty), fun hexact hok hne => ?_⟩
  have he := Ring.isEmpty_eq_false_iff.mpr hne
  refine ⟨?_, Ring.unread_eq_cons hok he⟩
  rw [exec_txReady ha hok, State.tested_of_exact (q := .tx) he hexact]
  rfl

/-- Settles O37: of the moves only `PUMP`'s sets `TX_ACT`, and only the idling one of `TX_READY` clears it. -/
theorem transmitterMovesOnlyByPumpAndTxReady : Obligations.TransmitterMovesOnlyByPumpAndTxReady := by
  intro s t h
  by_cases hr : ∃ rest, s.turns = .reset :: rest
  case pos =>
    obtain ⟨rest, ht⟩ := hr
    refine ⟨fun _ hset => ?_, fun _ _ => ⟨rest, .inl ht⟩⟩
    cases (step_of_reset ht).symm.trans h
    cases hset
  case neg =>
    rcases step_line h (not_exists.mp hr) with ⟨hact, -⟩ | ⟨tn, rest, w, i, ht, ha, hd, he, hm⟩
    · exact ⟨fun h0 h1 => by simp [hact, h0] at h1, fun h1 h0 => by simp [hact, h1] at h0⟩
    · cases hm with
      | idle hact htxd htx =>
        obtain ⟨-, htxie, -⟩ := enabled_txi_iff.mp he
        exact ⟨fun _ hset => by simp [hact] at hset,
          fun _ _ => ⟨rest, .inr ⟨turns_of_txReady ht ha hd, htxie, htxd, htx⟩⟩⟩
      | more hact => exact ⟨fun h0 h1 => by simp [hact, h0] at h1, fun h1 h0 => by simp [hact, h1] at h0⟩
      | start hact hs =>
        obtain ⟨-, htxd, -⟩ := hs
        obtain rfl : tn = .issue .main 0x8000#16 := turn_of_main ha hd rfl
        exact ⟨fun _ _ => ⟨rest, _, ht, htxd⟩, fun _ h0 => by simp [hact] at h0⟩

/-- Settles O38: every move that changes `TXD` sends the oldest byte of `TX`. -/
theorem lineGetsExactlyThePoppedBytes : Obligations.LineGetsExactlyThePoppedBytes := by
  intro s t h hr
  rcases step_line h hr with ⟨-, htxd⟩ | ⟨tn, rest, w, i, ht, ha, hd, -, hm⟩
  · exact .inl htxd
  · cases hm with
    | idle _ htxd => exact .inl htxd
    | more _ hs => exact .inr ⟨rest, .inr (turns_of_txReady ht ha hd), hs⟩
    | start _ hs =>
      obtain rfl : tn = .issue .main 0x8000#16 := turn_of_main ha hd rfl
      exact .inr ⟨rest, .inl ht, hs⟩

/-! ### The interrupt events -/

/-- `PUSH_RX b` is the word `0x1000 | b` (40_ring_buffer.md R102). -/
theorem pushRxWord_eq_ofNat (b : Byte) : pushRxWord b = BitVec.ofNat 16 (0x1000 + b.toNat) := by
  have := b.isLt
  refine BitVec.eq_of_toNat_eq ?_
  rw [pushRxWord, opWord_toNat, BitVec.toNat_ofNat]
  simp only [BitVec.toNat_ofNat]
  omega

theorem pushRxWord_inj {b c : Byte} (h : pushRxWord b = pushRxWord c) : b = c := by
  have hd := decodeOp_pushRxWord b
  rw [h, decodeOp_pushRxWord c] at hd
  cases hd
  rfl

/-- RXI's `PUSH_RX` of a byte that is not the head of `RXLINE` (log 13). -/
theorem issueFor_misissued {s : State} {b c : Byte} {line : List Byte} (he : enabled .rxi s = true)
    (hl : s.rxline = b :: line) (hne : c ≠ b) :
    issueFor .rxi (pushRxWord c) s = .misissued (s.issuing .rxi s.rxline) := by
  have hw : pushRxWord c ≠ pushRxWord b := fun h => hne (pushRxWord_inj h)
  simp only [issueFor, refused_of_enabled he, he, hl, if_neg hw, if_pos (pushRxWord_fields c), Bool.not_true,
    Bool.false_eq_true, if_false]

/-- Settles O7: both spellings of the receive turn issue RXI's own word, of which only that of the head of `RXLINE` is
executed; the transmit-ready turn issues TXI's. -/
theorem interruptEventsRunTheirOperations : Obligations.InterruptEventsRunTheirOperations := by
  intro s b line rest hr
  have hrxi : s.rxie = true → s.rxline = b :: line → enabled .rxi s = true := fun hie hl =>
    enabled_rxi_iff.mpr ⟨hr, hie, hl ▸ List.cons_ne_nil b line⟩
  simp only [← pushRxWord_eq_ofNat]
  refine ⟨fun ht hie hl => ?_, fun c ht hie hl hne => ?_, fun ht hie hact => ?_⟩
  · rcases ht with ht | ht
    · exact step_of_receive ht (by rw [Turn.asIssue, hl, List.headD_cons]) (hrxi hie hl) hl
    · exact step_of_receive ht rfl (hrxi hie hl) hl
  · rw [step_agent_turn ht rfl, issueFor_misissued (s := s.withTurns rest) (hrxi hie hl) hl hne]
    rfl
  · exact step_of_enabled ht rfl (enabled_txi_iff.mpr ⟨hr, hie, hact⟩) rfl nofun

end Sys2Proof.Machine

/-! ## The framer (42_framer.md R140 to R156)

`FR_STEP` with a byte waiting is `takeByte` of that byte, and `takeByte` is one arm for each class of byte and framer
state; the statements about single steps read that arm off, those about runs are inductions over the bytes. -/

namespace Sys2Proof.Machine

/-! ### The classes of a byte (R140) -/

section

variable {g : Grammar} {b : Byte}

theorem headerByte_ne_endByte (g : Grammar) : headerByte g ≠ endByte g := by cases g <;> decide

theorem byteClass_eq_hdr_iff : byteClass g b = .hdr ↔ b = headerByte g := by
  unfold byteClass
  split_ifs with hh he <;> simp [hh]

theorem byteClass_of_end (h : b = endByte g) : byteClass g b = .endm := by
  subst h
  rw [byteClass, if_neg (headerByte_ne_endByte g).symm, if_pos rfl]

theorem byteClass_of_ne (hh : b ≠ headerByte g) (he : b ≠ endByte g) : byteClass g b = .data := by
  rw [byteClass, if_neg hh, if_neg he]

end

/-! ### The arms of one step (R141 to R145, R149) -/

section

variable {s : State} {b : Byte}

/-- In `AD` no byte is taken (R149). -/
theorem exec_frStep_of_ad (ha : s.agent = .main) (had : s.fr.fst = .ad) :
    exec .frStep s = .next (s.withResult 0x00#8) := by
  show execFrStep s = _
  rw [execFrStep, issuedBy_of_agent ha, if_pos had]

/-- Outside `AD`, with exact tests, the waiting byte is taken (R141). -/
theorem exec_frStep_of_waiting (ha : s.agent = .main) (hexact : s.cfg.staleEmpty = false) (hok : s.rx.ok s.cfg.n)
    (hne : ¬(s.rx.wr = s.rx.rd ∧ s.rx.full = false)) (had : s.fr.fst ≠ .ad) :
    exec .frStep s = .next (takeByte (s.rx.mem.read s.rx.rd) s.tookRx) := by
  rw [exec_frStep ha had hok, State.tested_of_exact (q := .rx) (Ring.isEmpty_eq_false_iff.mpr hne) hexact]
  rfl

/-- In `AH` a byte that is no header is discarded (R142). -/
theorem takeByte_of_ah_of_ne (hah : s.fr.fst = .ah) (hb : b ≠ headerByte s.cfg.grammar) :
    takeByte b s = s.withResult 0x01#8 := by
  unfold takeByte
  rw [hah]
  cases hc : byteClass s.cfg.grammar b with
  | hdr => exact absurd (byteClass_eq_hdr_iff.mp hc) hb
  | endm | data => rfl

theorem State.headerTaken_of_ah (hah : s.fr.fst = .ah) :
    s.headerTaken = { s with fr := s.fr.cleared .ab, result := some 0x01#8 } := by
  unfold State.headerTaken
  rw [hah]

theorem State.headerTaken_of_ab (hab : s.fr.fst = .ab) :
    s.headerTaken = { s with
      fr := s.fr.cleared .ab, status := s.status ||| 0b10000#5
      evh := s.evh ++ [⟨.framingRestart s.fr.bodyLen, .main⟩], result := some 0x03#8 } := by
  unfold State.headerTaken
  rw [hab]

theorem State.endTaken_of_ab (hab : s.fr.fst = .ab) :
    s.endTaken =
      if frameOK s.cfg s.fr then { s with fr := { s.fr with fst := .ad }, result := some 0x05#8 }
      else { s with
        fr := s.fr.cleared .ah, status := s.status ||| 0b10000#5
        evh := s.evh ++ [⟨.framingLength s.fr.bodyLen s.fr.cmd, .main⟩], result := some 0x03#8 } := by
  unfold State.endTaken
  rw [hab]

theorem State.dataTaken_of_ab (hab : s.fr.fst = .ab) (b : Byte) :
    s.dataTaken b = { s with fr := s.fr.collect s.cfg b, result := some 0x01#8 } := by
  unfold State.dataTaken
  rw [hab]

end

/-- Settles O39. -/
theorem frStepTakesNothingInDispatchOrOnEmptyRing : Obligations.FrStepTakesNothingInDispatchOrOnEmptyRing := by
  intro s ha h
  rcases h with had | hempty
  · exact exec_frStep_of_ad ha had
  · exact exec_frStep_of_empty ha (Ring.isEmpty_iff.mpr hempty)

/-- Settles O40. -/
theorem frStepInAwaitingHeaderOpensOrIgnores : Obligations.FrStepInAwaitingHeaderOpensOrIgnores := by
  intro s ha hexact hok hne hah
  have hfst : s.tookRx.fr.fst = .ah := hah
  rw [exec_frStep_of_waiting ha hexact hok hne (by simp [hah])]
  refine congrArg _ ?_
  show _ = if s.rx.mem.read s.rx.rd = headerByte s.cfg.grammar then _ else _
  split
  case isTrue hb =>
    rw [takeByte_of_hdr (s := s.tookRx) ha (byteClass_eq_hdr_iff.mpr hb), State.headerTaken_of_ah hfst]
    rfl
  case isFalse hb => exact takeByte_of_ah_of_ne hfst hb

/-! ### The frame check (R147, R148) -/

theorem frameOK_iff_of_A {c : Config} {f : Framer} (hA : c.grammar = .A) :
    frameOK c f = true ↔
      3 ≤ f.bodyLen.toNat ∧ 0 ≤ f.width.toInt ∧ (f.bodyLen.toNat : Int) = 3 + f.width.toInt := by
  simp [frameOK, hA, and_assoc]

theorem frameOK_iff_of_B {c : Config} {f : Framer} (hB : c.grammar = .B) :
    frameOK c f = true ↔ f.bodyLen.toNat ≤ c.bodyMax := by
  simp [frameOK, hB]

/-- Settles O41: the Boolean is the frame check of the build's grammar. -/
theorem frStepOnEndMarkerClosesOrRejects : Obligations.FrStepOnEndMarkerClosesOrRejects := by
  intro s ha hexact hok hne hab hb
  refine ⟨frameOK s.cfg s.fr, ?_, ?_⟩
  · cases hg : s.cfg.grammar with
    | A => exact frameOK_iff_of_A hg
    | B => exact frameOK_iff_of_B hg
  · have hfst : s.tookRx.fr.fst = .ab := hab
    rw [exec_frStep_of_waiting ha hexact hok hne (by simp [hab]),
      takeByte_of_endm (s := s.tookRx) ha (byteClass_of_end hb), State.endTaken_of_ab hfst]
    rfl

/-- Settles O42. -/
theorem frStepOnHeaderInBodyRestarts : Obligations.FrStepOnHeaderInBodyRestarts := by
  intro s ha hexact hok hne hab hb
  have hfst : s.tookRx.fr.fst = .ab := hab
  rw [exec_frStep_of_waiting ha hexact hok hne (by simp [hab]),
    takeByte_of_hdr (s := s.tookRx) ha (byteClass_eq_hdr_iff.mpr hb), State.headerTaken_of_ab hfst]
  rfl

/-! ### A data byte in a body (R145, R146) -/

section

variable {c : Config} {f : Framer} {b : Byte}

/-- The body after an append: the byte at the body's end if the storage has room there (R145). -/
theorem Framer.append_read (hw : f.body.wf) (b : Byte) (i : Nat) :
    (f.append c b).body.read i =
      if i = f.bodyLen.toNat ∧ f.bodyLen.toNat < c.bodyMax then b else f.body.read i := by
  by_cases hroom : f.bodyLen.toNat < c.bodyMax
  · simp [Framer.append, hroom, Memory.read_write hw]
  · simp [Framer.append, hroom]

/-- The third body byte in Grammar A is appended and then the mnemonic is looked up (R145, R146). -/
theorem Framer.collect_of_third (hA : c.grammar = .A) (h3 : (f.append c b).bodyLen.toNat = 3) :
    f.collect c b = (f.append c b).lookup :=
  if_pos ⟨hA, BitVec.eq_of_toNat_eq h3⟩

/-- Any other body byte is appended only (R145). -/
theorem Framer.collect_of_not_third (h : ¬(c.grammar = .A ∧ (f.append c b).bodyLen.toNat = 3)) :
    f.collect c b = f.append c b :=
  if_neg fun ⟨hA, h3⟩ => h ⟨hA, congrArg BitVec.toNat h3⟩

/-- The lookup touches neither the body nor the framer state (R146). -/
theorem Framer.collect_frame (c : Config) (f : Framer) (b : Byte) :
    (f.collect c b).fst = f.fst ∧ (f.collect c b).bodyLen = (f.append c b).bodyLen ∧
      (f.collect c b).body = (f.append c b).body := by
  by_cases h3 : c.grammar = .A ∧ (f.append c b).bodyLen.toNat = 3
  · obtain ⟨hA, h3⟩ := h3
    rw [Framer.collect_of_third hA h3]
    exact ⟨rfl, rfl, rfl⟩
  · rw [Framer.collect_of_not_third h3]
    exact ⟨rfl, rfl, rfl⟩

end

/-- `FR_STEP` in `AB` with a data byte waiting (R141, R145). -/
theorem exec_frStep_of_data {s : State} (ha : s.agent = .main) (hexact : s.cfg.staleEmpty = false)
    (hok : s.rx.ok s.cfg.n) (hne : ¬(s.rx.wr = s.rx.rd ∧ s.rx.full = false)) (hab : s.fr.fst = .ab)
    (hdata : byteClass s.cfg.grammar (s.rx.mem.read s.rx.rd) = .data) :
    exec .frStep s = .next
      { s.tookRx with fr := s.fr.collect s.cfg (s.rx.mem.read s.rx.rd), result := some 0x01#8 } := by
  rw [exec_frStep_of_waiting ha hexact hok hne (by simp [hab]), takeByte_of_data (s := s.tookRx) hdata,
    State.dataTaken_of_ab (s := s.tookRx) hab]
  rfl

/-- Settles O43: the framer is `Framer.collect`, which looks the mnemonic up at the third byte only. -/
theorem frStepOnDataByteAppends : Obligations.FrStepOnDataByteAppends := by
  intro s ha hexact hinv hne hab hh he
  obtain ⟨hc, hok, -, -, -, -, -, -, hw, -⟩ := hinv
  generalize hbyte : s.rx.mem.read s.rx.rd = b at hh he ⊢
  obtain ⟨hfst, hlen, hbody⟩ := Framer.collect_frame s.cfg s.fr b
  refine ⟨s.fr.collect s.cfg b, hfst.trans hab, ?_, fun i => ?_, ?_, ?_⟩
  · rw [hlen, Framer.append_len hc]
  · rw [hbody, Framer.append_read hw]
  · rw [hlen]
    split
    case isTrue h3 =>
      obtain ⟨hA, h3⟩ := h3
      rw [Framer.collect_of_third hA h3]
      exact ⟨rfl, rfl⟩
    case isFalse h3 =>
      rw [Framer.collect_of_not_third h3]
      exact ⟨rfl, rfl⟩
  · rw [exec_frStep_of_data ha hexact hok hne hab (by rw [hbyte]; exact byteClass_of_ne hh he), hbyte]

/-! ### FR_ACK and FR_BODY (R150, R151) -/

/-- An operation of MAIN's, whichever agent issues it (10_state.md R50, 60_exceptions.md R219). -/
theorem exec_main_or_refused {i : Instr} {s t : State} (hi : Instr.agent i = .main)
    (h : s.agent = .main → exec i s = .next t) :
    exec i s = .next (if s.agent ≠ .main then { s with refused := some .wrongAgent, result := none } else t) := by
  by_cases ha : s.agent = .main
  · rw [if_neg (not_not.mpr ha), h ha]
  · rw [if_pos ha, exec_of_agent_ne (hi ▸ ha)]
    rfl

/-- Settles O44. -/
theorem frAckReleasesOnlyAWaitingBody : Obligations.FrAckReleasesOnlyAWaitingBody := by
  refine ⟨rfl, fun s => exec_main_or_refused rfl fun ha => ?_⟩
  show execFrAck s = _
  rw [execFrAck, issuedBy_of_agent ha]
  split
  · rfl
  · rfl

theorem exec_frBody {s : State} (ha : s.agent = .main) (k : Byte) :
    exec (.frBody k) s = .next (s.withResult (s.bodyByte k)) := if_pos ha

/-- `FR_BODY k` is the word `0x6000 | k` (R151). -/
theorem encode_frBody (k : Byte) : encode (.frBody k) = .op (BitVec.ofNat 16 (0x6000 + k.toNat)) := by
  refine congrArg Encoding.op (BitVec.eq_of_toNat_eq ?_)
  have := k.isLt
  rw [opWord_toNat, BitVec.toNat_ofNat]
  simp only [BitVec.toNat_ofNat]
  omega

/-- With no body every body byte reads as 0x00 (R151). -/
theorem State.bodyByte_of_no_body {s : State} (h : s.fr.bodyLen = 0x00#8) (k : Byte) : s.bodyByte k = 0x00#8 := by
  simp [State.bodyByte, h]

/-- Settles O45: in `AH` the framer invariants leave no body. -/
theorem frBodyReadsTheBodyOrZero : Obligations.FrBodyReadsTheBodyOrZero := by
  intro k
  refine ⟨decodeOp_of_encode (encode_frBody k), fun s => exec_main_or_refused rfl fun ha => exec_frBody ha k,
    fun s ha hinv hah => ?_⟩
  obtain ⟨-, -, -, hreset, -⟩ := hinv
  obtain ⟨hlen, -, -⟩ := hreset hah
  rw [exec_frBody ha, State.bodyByte_of_no_body hlen]
  rfl

/-! ### The mnemonic lookup and the wire rows (R146; 30_encoding.md R86, R87) -/

/-- Settles O5: the patterns are tested in the order of the table. -/
theorem lookupFollowsMnemonicTable : Obligations.LookupFollowsMnemonicTable := by
  intro p
  show _ = if p = patternGoo then _ else if p = patternEnd then _ else if p = patternSpd then _
    else if p = patternAlt then _ else if p = patternMan then _ else if p = patternLed then _ else _
  unfold lookupCmd decodeMnemonic
  split_ifs <;> rfl

/-- Settles O51: a marker's row is the framer taking that byte. -/
theorem frStepRunsTheMarkerRow : Obligations.FrStepRunsTheMarkerRow := by
  intro s ha hexact hok hne had
  have htakes := exec_frStep_of_waiting ha hexact hok hne had
  refine ⟨htakes, fun i hi => ?_⟩
  rw [htakes, exec_of_encode_wire (s := s.tookRx) ha (encode_of_decodeWire hi)]

/-- No mnemonic ends in a marker of Grammar A (30_encoding.md R87). -/
theorem byteClass_of_decodeMnemonic {x y b : Byte} {i : Instr} (h : decodeMnemonic (x ++ y ++ b) = .ok i) :
    byteClass .A b = .data := by
  have hb : b = (x ++ y ++ b).extractLsb' 0 8 := BitVec.extractLsb'_append_eq_right.symm
  have henc := encode_of_decodeMnemonic h
  generalize (x ++ y ++ b : Pattern) = p at hb henc
  subst hb
  cases i with
  | mnemGoo | mnemEnd | mnemSpd | mnemAlt | mnemMan | mnemLed => cases henc; rfl
  | _ => cases henc

/-- A mnemonic's row, on a body of three bytes that spells it, is the lookup of the body (R146; log 12). -/
theorem exec_of_pattern {s : State} {i : Instr} (ha : s.agent = .main) (hA : s.cfg.grammar = .A)
    (hab : s.fr.fst = .ab) (h3 : s.fr.bodyLen.toNat = 3) (hi : decodeMnemonic s.fr.pattern = .ok i) :
    exec i s = .next (s.setFramer s.fr.lookup) := by
  rw [exec_of_encode_mnemonic ha (encode_of_decodeMnemonic hi), recognise,
    if_pos ⟨hA, hab, BitVec.eq_of_toNat_eq h3, rfl⟩]
  rfl

/-- Settles O53: the third byte of a mnemonic is a data byte, so it is appended and looked up. -/
theorem frStepRunsTheMnemonicRow : Obligations.FrStepRunsTheMnemonicRow := by
  intro s i ha hexact hinv hne hA hab h2 f hi
  obtain ⟨hc, hok, -, -, -, -, -, -, hw, -⟩ := hinv
  have ⟨_, _, hroom, _⟩ := hc
  have hmax := hroom hA
  have hlast : f.body.read 2 = s.rx.mem.read s.rx.rd :=
    (Framer.append_read hw _ 2).trans (if_pos ⟨h2.symm, by omega⟩)
  have h3 : f.bodyLen.toNat = 3 := by
    rw [Framer.append_len hc]
    omega
  have hdata : byteClass s.cfg.grammar (s.rx.mem.read s.rx.rd) = .data := by
    rw [hA, ← hlast]
    exact byteClass_of_decodeMnemonic hi
  rw [exec_frStep_of_data ha hexact hok hne hab hdata, Framer.collect_of_third hA h3]
  exact (exec_of_pattern (s := { s.tookRx with fr := f, result := some 0x01#8 }) ha hA hab h3 hi).symm

/-! ### What moves the framer (R156, 10_state.md R34) -/

/-- Of the operations an agent can issue only `FR_STEP` and `FR_ACK` touch the framer. -/
theorem Effect.fr_eq {i : Instr} {s t : State} {w : OpWord} (h : Effect s i t) (hw : encode i = .op w)
    (hstep : i ≠ .frStep) (hack : i ≠ .frAck) : t.fr = s.fr := by
  cases h with
  | pushRx hp | pushTx hp =>
    obtain ⟨r, ⟨-, rfl⟩ | ⟨-, lost, rfl⟩⟩ := pushRing_next hp <;> simp
  | popRx hp | popTx hp => rcases popRing_next hp with ⟨-, rfl⟩ | ⟨-, rfl⟩ <;> simp
  | emptyRx | emptyTx =>
    obtain ⟨k, v, e⟩ := emptyQuery_eq _ s
    rw [e]
    rfl
  | frStepHeld | frStepNone | frStepTake => exact absurd rfl hstep
  | frAck | frAckNone => exact absurd rfl hack
  | marker hi | mnemonic hi => cases hi.symm.trans hw
  | nop | frBody | txReadyIdle | txReadySend | pumpBusy | pumpNone | pumpSend | ieWrite | clrStatus | rdReg
  | rdRegReserved => rfl

/-- A word that changes the framer is MAIN's `FR_STEP` or `FR_ACK`. -/
theorem issueWord_fr_ne {w : OpWord} {s t : State} (h : issueWord w s = .next t) (hne : t.fr ≠ s.fr) :
    s.agent = .main ∧ (decodeOp w = .ok .frStep ∨ decodeOp w = .ok .frAck) := by
  rcases issueWord_next h with ⟨-, -, rfl⟩ | ⟨i, hi, he⟩
  · exact absurd rfl hne
  · rcases exec_next he with ⟨-, rfl⟩ | ⟨ha, he⟩
    · exact absurd rfl hne
    · by_cases hstep : i = .frStep
      · subst hstep; exact ⟨ha, .inl hi⟩
      by_cases hack : i = .frAck
      · subst hack; exact ⟨ha, .inr hi⟩
      exact absurd (he.fr_eq (encode_of_decodeOp hi) hstep hack) hne

/-- A step that changes the framer is a reset, or MAIN issuing `FR_STEP` or `FR_ACK`. -/
theorem step_fr_ne {s t : State} (h : step s = .next t) (hne : t.fr ≠ s.fr) :
    ∃ rest : List Turn, s.turns = .reset :: rest ∨
      s.turns = .issue .main 0x4000#16 :: rest ∨ s.turns = .issue .main 0x5000#16 :: rest := by
  rcases step_next h with ⟨-, rfl⟩ | ⟨rest, ht, -⟩ | ⟨tn, rest, a, w, ht, hi, -, h3⟩
  · exact absurd rfl hne
  · exact ⟨rest, .inl ht⟩
  · rcases h3 with ⟨-, rfl⟩ | ⟨-, -, rfl⟩ | ⟨-, line, -, hw⟩
    · exact absurd rfl hne
    · exact absurd rfl hne
    · obtain ⟨ha, hd⟩ := issueWord_fr_ne hw hne
      obtain rfl : a = .main := ha
      refine ⟨rest, .inr (hd.imp (fun hd => ?_) fun hd => ?_)⟩
      · obtain rfl : tn = .issue .main 0x4000#16 := turn_of_main hi hd rfl
        exact ht
      · obtain rfl : tn = .issue .main 0x5000#16 := turn_of_main hi hd rfl
        exact ht

/-- MAIN has a step exactly while nothing is refused (10_state.md R51). -/
theorem enabled_main_iff {s : State} : enabled .main s = true ↔ s.refused = none := by
  simp [enabled]

/-- MAIN issuing `FR_STEP`, while nothing is refused. -/
theorem step_of_frStep {s : State} {rest : List Turn} (ht : s.turns = .issue .main 0x4000#16 :: rest)
    (hr : s.refused = none) : step s = exec .frStep ((s.withTurns rest).issuing .main s.rxline) :=
  step_of_enabled ht rfl (enabled_main_iff.mpr hr) rfl nofun

/-- Settles O46: in `AD` an `FR_STEP` takes nothing. -/
theorem framerMovesOnlyByFrStepAndFrAck : Obligations.FramerMovesOnlyByFrStepAndFrAck := by
  intro s t h
  refine ⟨step_fr_ne h, fun had ⟨rest, ht⟩ => ?_⟩
  cases hr : s.refused with
  | some why => exact absurd ((step_of_refused ht rfl hr).symm.trans h) nofun
  | none =>
    rw [step_of_frStep ht hr, exec_frStep_of_ad (s := (s.withTurns rest).issuing .main s.rxline) rfl had] at h
    cases h
    exact ⟨rfl, rfl⟩

/-! ### The framer fed byte by byte -/

theorem takeBytes_cons (b : Byte) (bs : List Byte) (s : State) :
    takeBytes (b :: bs) s = takeBytes bs (takeByte b s) := rfl

/-- The framer does not read the last result: every arm answers its own (R141). -/
theorem takeByte_withResult (b v : Byte) (s : State) : takeByte b (s.withResult v) = takeByte b s := by
  unfold takeByte
  simp only [State.withResult_fr, State.withResult_cfg]
  cases s.fr.fst <;> cases byteClass s.cfg.grammar b <;> rfl

/-- Settles O47: each byte of the noise leaves a result only, which the first byte of the packet overwrites. -/
theorem noiseBeforeAPacketIsInvisible : Obligations.NoiseBeforeAPacketIsInvisible := by
  intro s noise packet hah hp hnoise
  obtain ⟨b, bs, rfl⟩ := List.exists_cons_of_ne_nil hp
  induction noise generalizing s with
  | nil => rfl
  | cons x noise ih =>
    obtain ⟨hx, hrest⟩ := List.forall_mem_cons.mp hnoise
    rw [List.cons_append, takeBytes_cons, takeByte_of_ah_of_ne hah hx, ih (s.withResult 0x01#8) hah hrest,
      takeBytes_cons, takeBytes_cons, takeByte_withResult]

/-- No frame is open, or one with an undefined mnemonic (R154). -/
def State.noValidFrame (s : State) : Prop := s.fr.fst = .ah ∨ s.fr.fst = .ab ∧ s.fr.cmd = .undef

/-- The width of `UNDEF` is -1, so its frame check fails at every length (R147, R154). -/
theorem frameOK_of_undef {s : State} (h : s.inv) (hu : s.fr.cmd = .undef) : frameOK s.cfg s.fr = false := by
  obtain ⟨-, -, -, -, hcmd, hwidth, -⟩ := h
  obtain ⟨hA, -⟩ := hcmd.mp (by simp [hu])
  rw [← Bool.not_eq_true, frameOK_iff_of_A hA, hwidth, hu]
  rintro ⟨-, hneg, -⟩
  exact absurd hneg (by decide)

/-- A body that has a command type is past its third byte, so no later byte changes the type (R145). -/
theorem Framer.collect_cmd_of_ne_none {s : State} (h : s.inv) (hn : s.fr.cmd ≠ .none) (b : Byte) :
    (s.fr.collect s.cfg b).cmd = s.fr.cmd := by
  obtain ⟨hc, -, -, -, hcmd, -⟩ := h
  obtain ⟨hA, h3⟩ := hcmd.mp hn
  have ⟨_, _, hroom, _⟩ := hc
  have hmax := hroom hA
  rw [Framer.collect_of_not_third]
  · rfl
  · rintro ⟨-, hlen⟩
    rw [Framer.append_len hc] at hlen
    omega

theorem takeByte_noValidFrame {s : State} {b : Byte} (h : s.inv) (hs : s.noValidFrame)
    (hb : b ≠ headerByte s.cfg.grammar) : (takeByte b s).noValidFrame := by
  rcases hs with hah | ⟨hab, hu⟩
  · rw [takeByte_of_ah_of_ne hah hb]
    exact .inl hah
  · rcases takeByte_cases b s with ⟨had, -⟩ | ⟨-, hh, -⟩ | ⟨hah, -⟩ | ⟨-, hh, -⟩ |
      ⟨-, -, -, hgood, -⟩ | ⟨-, -, -, -, e⟩ | ⟨-, -, -, e⟩
    · simp [hab] at had
    · exact absurd hh hb
    · simp [hab] at hah
    · exact absurd hh hb
    · simp [frameOK_of_undef h hu] at hgood
    · rw [e]
      exact .inl rfl
    · rw [e]
      obtain ⟨hfst, -, -⟩ := Framer.collect_frame s.cfg s.fr b
      exact .inr ⟨hfst.trans hab, (Framer.collect_cmd_of_ne_none h (by simp [hu]) b).trans hu⟩

theorem takeBytes_noValidFrame {s : State} {bs : List Byte} (h : s.inv) (hs : s.noValidFrame)
    (hb : ∀ b ∈ bs, b ≠ headerByte s.cfg.grammar) : (takeBytes bs s).noValidFrame := by
  induction bs generalizing s with
  | nil => exact hs
  | cons b bs ih =>
    obtain ⟨hhead, htail⟩ := List.forall_mem_cons.mp hb
    exact ih (takeByte_inv h b) (takeByte_noValidFrame h hs hhead) (by rwa [takeByte_cfg])

/-- Settles O48: `State.noValidFrame` is kept by every byte that is no header. -/
theorem undefinedMnemonicNeverCompletes : Obligations.UndefinedMnemonicNeverCompletes := by
  intro s bytes h hab hu hb
  rcases takeBytes_noValidFrame h (.inr ⟨hab, hu⟩) hb with he | ⟨he, -⟩ <;> simp [he]

/-! ### Runs of FR_STEP -/

/-- The state with this ring as `RX` and these turns left. -/
def State.withRxTurns (s : State) (q : Ring) (l : List Turn) : State := { s with rx := q, turns := l }

/-- The framer reads neither ring nor turn list, and keeps both, over any bytes. -/
theorem takeBytes_withRxTurns (bs : List Byte) (s : State) (q : Ring) (l : List Turn) :
    takeBytes bs (s.withRxTurns q l) = (takeBytes bs s).withRxTurns q l := by
  induction bs generalizing s with
  | nil => rfl
  | cons b bs ih =>
    have hb : takeByte b (s.withRxTurns q l) = (takeByte b s).withRxTurns q l := takeByte_with_rx_turns b s q l
    rw [takeBytes_cons, hb, ih, takeBytes_cons]

/-- A run goes on from the next state of its first step. -/
theorem run_succ_of_step {M : Host.Core} {s t : M.State} (h : M.step s = .next t) (k : Nat) :
    M.run (k + 1) s = M.run k t := by
  rw [Host.Core.run, h]

/-- A ring with an unread byte is not empty, its oldest byte is at the read index, and the other bytes are those of the
ring after a pop (10_state.md R26). -/
theorem Ring.of_unread_eq_cons {n : Nat} {q : Ring} {b : Byte} {l : List Byte} (h : q.ok n) (hu : q.unread n = b :: l) :
    q.isEmpty = false ∧ q.mem.read q.rd = b ∧ (q.popped n).unread n = l := by
  have he : q.isEmpty = false := by
    rw [← Bool.not_eq_true, ← Ring.unread_eq_nil_iff h, hu]
    exact List.cons_ne_nil b l
  rw [Ring.unread_eq_cons h he] at hu
  obtain ⟨hb, hl⟩ := List.cons.inj hu
  exact ⟨he, hb, hl⟩

/-- One `FR_STEP` turn of MAIN, with exact tests and outside `AD`: the framer takes the first unread byte of `RX`, which
leaves it, and the turn is used up (R141). -/
theorem step_takes_byte {s : State} {b : Byte} {l : List Byte} {rest : List Turn} (ha : s.agent = .main)
    (hr : s.refused = none) (hexact : s.cfg.staleEmpty = false) (hok : s.rx.ok s.cfg.n)
    (hu : s.rx.unread s.cfg.n = b :: l) (had : s.fr.fst ≠ .ad) (ht : s.turns = .issue .main 0x4000#16 :: rest) :
    step s = .next ((takeByte b s).withRxTurns (s.rx.popped s.cfg.n) rest) := by
  obtain ⟨he, rfl, -⟩ := Ring.of_unread_eq_cons hok hu
  have htaken : ((s.withTurns rest).issuing .main s.rxline).tookRx = s.withRxTurns (s.rx.popped s.cfg.n) rest := by
    rw [← ha]
    rfl
  rw [step_of_frStep ht hr,
    exec_frStep_of_waiting (s := (s.withTurns rest).issuing .main s.rxline) rfl hexact hok
      (Ring.isEmpty_eq_false_iff.mp he) had, htaken]
  exact congrArg _ (takeByte_with_rx_turns _ s _ rest)

/-- Settles O60, by induction on the bytes taken. -/
theorem frStepsTakeTheWaitingBytesInOrder : Obligations.FrStepsTakeTheWaitingBytesInOrder := by
  intro s bytes left rest ha hr hexact hok hu hopen ht
  induction bytes generalizing s with
  | nil =>
    obtain rfl : s.turns = rest := ht
    exact ⟨s.rx, hu, hok, rfl, rfl, rfl⟩
  | cons b bs ih =>
    obtain ⟨-, -, hpop⟩ := Ring.of_unread_eq_cons hok hu
    have hstep := step_takes_byte ha hr hexact hok hu (hopen 0 (Nat.succ_pos _)) ht
    obtain ⟨q, hqu, hqok, hmem, hwr, hrun⟩ := ih
      ((takeByte b s).withRxTurns (s.rx.popped s.cfg.n) (.replicate bs.length (.issue .main 0x4000#16) ++ rest))
      ((takeByte_agent b s).trans ha) ((takeByte_refused b s).trans hr)
      ((congrArg Config.staleEmpty (takeByte_cfg b s)).trans hexact)
      (by rw [State.withRxTurns, takeByte_cfg]; exact Ring.popped_ok hok)
      (by rw [State.withRxTurns, takeByte_cfg]; exact hpop)
      (fun k hk => by rw [takeBytes_withRxTurns]; exact hopen (k + 1) (Nat.succ_lt_succ hk)) rfl
    rw [State.withRxTurns, takeByte_cfg] at hqu hqok
    rw [takeBytes_withRxTurns] at hrun
    exact ⟨q, hqu, hqok, hmem, hwr, (run_succ_of_step hstep bs.length).trans hrun⟩

end Sys2Proof.Machine

/-! ## The pump and response framing (43_tx_frame_pump.md R170 to R175)

A response frame is its markers, its tag and the digits of a number. Fed back to the framer, its digits can neither
start nor complete a mnemonic, so that the tag alone decides what becomes of it. -/

namespace Sys2Proof.Machine

/-! ### The pump (R170) -/

/-- An active transmitter is left alone (R170). -/
theorem exec_pump_of_active {s : State} (ha : s.agent = .main) (hact : s.txAct = true) :
    exec .pump s = .next (s.withResult 0x00#8) := by
  show execPump s = _
  rw [execPump, issuedBy_of_agent ha, if_pos hact]

/-- Settles O36: an exact test of `TX` sees it not empty where it is not, and then the idle transmitter sends. -/
theorem pumpStartsOnlyAnIdleTransmitter : Obligations.PumpStartsOnlyAnIdleTransmitter := by
  intro s ha
  refine ⟨fun h => ?_, fun hexact hok hact hne => ?_⟩
  · rcases h with hact | hempty
    · exact exec_pump_of_active ha hact
    · exact exec_pump_of_empty ha (Ring.isEmpty_iff.mpr hempty)
  · have he := Ring.isEmpty_eq_false_iff.mpr hne
    refine ⟨?_, Ring.unread_eq_cons hok he⟩
    rw [exec_pump ha hact hok, State.tested_of_exact (q := .tx) he hexact]
    rfl

/-! ### The digits of a response frame (R173) -/

/-- The number a lowercase hexadecimal digit stands for (20_memory.md R63). -/
def digitValue (d : Byte) : Nat := if d.toNat ≤ 0x39 then d.toNat - 0x30 else d.toNat - 0x61 + 10

theorem hexValue_eq_foldl (ds : List Byte) : hexValue ds = ds.foldl (fun n d => 16 * n + digitValue d) 0 := rfl

/-- `HexDigit(d)` is a lowercase digit that stands for `d` (R173). -/
theorem hexDigit_spec {d : Nat} (h : d < 16) : isHexDigit (hexDigit d) ∧ digitValue (hexDigit d) = d := by
  revert d
  decide

/-- Every digit of the expansion is one hexadecimal place of the value. -/
theorem hexDigits_succ (v w : Nat) : hexDigits v (w + 1) = hexDigit (v / 16 ^ w % 16) :: hexDigits v w := by
  have hshift : v >>> (4 * w) = v / 16 ^ w := by rw [Nat.shiftRight_eq_div_pow, Nat.pow_mul]
  have hmask : ∀ x, x &&& 0xF = x % 16 := fun x => Nat.and_two_pow_sub_one_eq_mod x 4
  rw [hexDigits, hshift, hmask]

theorem hexDigits_length (v w : Nat) : (hexDigits v w).length = w := by
  induction w with
  | zero => rfl
  | succ w ih => rw [hexDigits_succ, List.length_cons, ih]

theorem isHexDigit_of_mem_hexDigits {v w : Nat} {d : Byte} (h : d ∈ hexDigits v w) : isHexDigit d := by
  induction w with
  | zero => cases h
  | succ w ih =>
    rw [hexDigits_succ, List.mem_cons] at h
    rcases h with rfl | h
    · exact (hexDigit_spec (Nat.mod_lt _ (by decide))).1
    · exact ih h

/-- Reading the digits on from a number shifts it left by their places and adds the low part of the value. -/
theorem foldl_hexDigits (v w n : Nat) :
    (hexDigits v w).foldl (fun n d => 16 * n + digitValue d) n = n * 16 ^ w + v % 16 ^ w := by
  induction w generalizing n with
  | zero => simp [hexDigits, Nat.mod_one]
  | succ w ih =>
    obtain ⟨-, hval⟩ := hexDigit_spec (Nat.mod_lt (v / 16 ^ w) (by decide : 0 < 16))
    rw [hexDigits_succ, List.foldl_cons, ih, hval, Nat.mod_pow_succ]
    ring

theorem hexValue_hexDigits (v w : Nat) : hexValue (hexDigits v w) = v % 16 ^ w := by
  rw [hexValue_eq_foldl, foldl_hexDigits, Nat.zero_mul, Nat.zero_add]

/-- Settles O58: the digits are those of `v mod 16^W`, which is below `16^W`, so none is lost. -/
theorem responseFrameHoldsTheLowHexDigits : Obligations.ResponseFrameHoldsTheLowHexDigits := by
  intro g t0 t1 t2 v w
  split
  case isTrue hw =>
    refine ⟨hexDigits (v % (16 ^ w : Nat)).toNat w, hexDigits_length _ w, fun d => isHexDigit_of_mem_hexDigits, ?_,
      by rw [frameTxA, frameBytes, if_pos hw, Option.map_some]⟩
    have hpos : (0 : Int) < (16 ^ w : Nat) := by positivity
    have hnonneg := Int.emod_nonneg v hpos.ne'
    have hlt := Int.emod_lt_of_pos v hpos
    rw [hexValue_hexDigits, Nat.mod_eq_of_lt (by omega), Int.toNat_of_nonneg hnonneg]
  case isFalse hw => rw [frameTxA, frameBytes, if_neg hw, Option.map_none]

/-! ### Which tags the lookup knows (42_framer.md R146) -/

/-- A capital letter, the alphabet of the mnemonics (30_encoding.md R87). -/
abbrev isCapital (b : Byte) : Prop := 0x41 ≤ b.toNat ∧ b.toNat ≤ 0x5A

theorem isCapital_of_decodeMnemonic {x y z b : Byte} {i : Instr} (h : decodeMnemonic (x ++ y ++ z) = .ok i)
    (hb : b ∈ [x, y, z]) : isCapital b := by
  have hx : x = (x ++ y ++ z).extractLsb' 16 8 :=
    ((BitVec.extractLsb'_append_eq_of_le (by decide)).trans BitVec.extractLsb'_append_eq_left).symm
  have hy : y = (x ++ y ++ z).extractLsb' 8 8 :=
    ((BitVec.extractLsb'_append_eq_of_le (by decide)).trans BitVec.extractLsb'_append_eq_right).symm
  have hz : z = (x ++ y ++ z).extractLsb' 0 8 := BitVec.extractLsb'_append_eq_right.symm
  have henc := encode_of_decodeMnemonic h
  generalize (x ++ y ++ z : Pattern) = p at hx hy hz henc
  subst hx hy hz
  revert b
  cases i with
  | mnemGoo | mnemEnd | mnemSpd | mnemAlt | mnemMan | mnemLed => cases henc; decide
  | _ => cases henc

/-- Three bytes of which one is no capital letter spell no mnemonic. -/
theorem lookupCmd_of_not_capital {x y z b : Byte} (hb : b ∈ [x, y, z]) (hn : ¬isCapital b) :
    lookupCmd (x ++ y ++ z) = .undef := by
  cases hd : decodeMnemonic (x ++ y ++ z) with
  | error e => rw [lookupCmd, hd]
  | ok i => exact absurd (isCapital_of_decodeMnemonic hd hb) hn

/-- The tags a frame of width `w` is made for (30_encoding.md R87): no other mnemonic takes a value of that width. -/
theorem lookupCmd_width_eq_iff {p : Pattern} {w : Nat} (hw : w = 2 ∨ w = 4) :
    (lookupCmd p).width.toInt = w ↔
      (w = 4 ∧ (p = 0x474F4F#24 ∨ p = 0x535044#24 ∨ p = 0x414C54#24)) ∨
      (w = 2 ∧ (p = 0x4D414E#24 ∨ p = 0x4C4544#24)) := by
  have htable := congrArg Prod.snd (lookupFollowsMnemonicTable p)
  simp only [apply_ite Prod.snd] at htable
  rw [htable]
  rcases hw with rfl | rfl
  · split_ifs <;> simp_all
  · split_ifs <;> simp_all

/-- The markers of Grammar A are below every digit and letter (30_encoding.md R86). -/
theorem byteClass_of_marker_lt {b : Byte} (h : 0x24 < b.toNat) : byteClass .A b = .data :=
  byteClass_of_ne (by rintro rfl; exact absurd h (by decide)) (by rintro rfl; exact absurd h (by decide))

theorem byteClass_of_isHexDigit {b : Byte} (h : isHexDigit b) : byteClass .A b = .data :=
  byteClass_of_marker_lt (by omega)

theorem not_isCapital_of_isHexDigit {b : Byte} (h : isHexDigit b) : ¬isCapital b := by
  omega

/-! ### The bytes of a body, as the framer collects them (42_framer.md R145) -/

theorem State.inv_body {s : State} (h : s.inv) : s.cfg.wf ∧ s.fr.body.wf := by
  obtain ⟨hc, -, -, -, -, -, -, -, hw, -⟩ := h
  exact ⟨hc, hw⟩

/-- A Grammar A build has room for a tag and four digits (00_scope.md R7). -/
theorem seven_le_bodyMax {c : Config} (h : c.wf) (hA : c.grammar = .A) : 7 ≤ c.bodyMax := by
  obtain ⟨-, -, hmax, -⟩ := h
  exact hmax hA

theorem takeBytes_singleton (b : Byte) (s : State) : takeBytes [b] s = takeByte b s := rfl

theorem takeBytes_append (as bs : List Byte) (s : State) : takeBytes (as ++ bs) s = takeBytes bs (takeBytes as s) :=
  List.foldl_append

theorem takeBytes_cfg (bs : List Byte) (s : State) : (takeBytes bs s).cfg = s.cfg := by
  induction bs generalizing s with
  | nil => rfl
  | cons b bs ih => rw [takeBytes_cons, ih, takeByte_cfg]

theorem takeBytes_inv {s : State} (h : s.inv) (bs : List Byte) : (takeBytes bs s).inv := by
  induction bs generalizing s with
  | nil => exact h
  | cons b bs ih => exact ih (takeByte_inv h b)

/-- The bytes accumulated so far, the first one first (10_state.md R29). -/
def Framer.bytes (f : Framer) : List Byte := (List.range f.bodyLen.toNat).map f.body.read

theorem Framer.bytes_length (f : Framer) : f.bytes.length = f.bodyLen.toNat := by
  simp [Framer.bytes]

theorem Framer.bodyLen_of_bytes {f : Framer} {bs : List Byte} (h : f.bytes = bs) : f.bodyLen.toNat = bs.length := by
  rw [← f.bytes_length, h]

section

variable {c : Config} {f : Framer}

theorem Framer.append_bytes (hc : c.wf) (hw : f.body.wf) (hroom : f.bodyLen.toNat < c.bodyMax) (b : Byte) :
    (f.append c b).bytes = f.bytes ++ [b] := by
  have hread : ∀ i, (f.append c b).body.read i = if i = f.bodyLen.toNat then b else f.body.read i := fun i => by
    simp [Framer.append_read hw, hroom]
  rw [Framer.bytes, Framer.append_len hc, min_eq_left (by omega), List.range_succ, List.map_append,
    List.map_singleton, hread, if_pos rfl]
  refine congrArg (· ++ [b]) (List.map_congr_left fun i hi => ?_)
  rw [hread, if_neg (List.mem_range.mp hi).ne]

/-- The lookup reads the body and keeps it (42_framer.md R146). -/
theorem Framer.collect_bytes (hc : c.wf) (hw : f.body.wf) (hroom : f.bodyLen.toNat < c.bodyMax) (b : Byte) :
    (f.collect c b).bytes = f.bytes ++ [b] := by
  obtain ⟨-, hlen, hbody⟩ := Framer.collect_frame c f b
  rw [← Framer.append_bytes hc hw hroom, Framer.bytes, hlen, hbody, Framer.bytes]

theorem Framer.pattern_of_bytes {x y z : Byte} (h : f.bytes = [x, y, z]) : f.pattern = x ++ y ++ z := by
  have h3 : f.bodyLen.toNat = 3 := Framer.bodyLen_of_bytes h
  rw [Framer.bytes, h3] at h
  cases h
  rfl

/-- The third byte of a Grammar A body sets the command type to what the three bytes spell (42_framer.md R145, R146). -/
theorem Framer.collect_cmd_of_third (hc : c.wf) (hA : c.grammar = .A) (hw : f.body.wf) {x y : Byte}
    (hxy : f.bytes = [x, y]) (b : Byte) : (f.collect c b).cmd = lookupCmd (x ++ y ++ b) := by
  have h7 := seven_le_bodyMax hc hA
  have h2 : f.bodyLen.toNat = 2 := Framer.bodyLen_of_bytes hxy
  have h3 : (f.append c b).bodyLen.toNat = 3 := by rw [Framer.append_len hc]; omega
  have hbytes := Framer.append_bytes hc hw (by omega) b
  rw [hxy] at hbytes
  rw [Framer.collect_of_third hA h3]
  exact congrArg lookupCmd (Framer.pattern_of_bytes hbytes)

end

section

variable {s : State} {b : Byte}

theorem takeByte_fr_of_data (hab : s.fr.fst = .ab) (hb : byteClass s.cfg.grammar b = .data) :
    (takeByte b s).fr = s.fr.collect s.cfg b := by
  rw [takeByte_of_data hb, State.dataTaken_of_ab hab]

/-- Data bytes that the body storage has room for are collected in order (42_framer.md R145). -/
theorem takeBytes_of_data {bs : List Byte} (h : s.inv) (hab : s.fr.fst = .ab)
    (hb : ∀ b ∈ bs, byteClass s.cfg.grammar b = .data) (hroom : s.fr.bodyLen.toNat + bs.length ≤ s.cfg.bodyMax) :
    (takeBytes bs s).fr.fst = .ab ∧ (takeBytes bs s).fr.bytes = s.fr.bytes ++ bs ∧
      (s.fr.cmd ≠ .none → (takeBytes bs s).fr.cmd = s.fr.cmd) := by
  induction bs generalizing s with
  | nil => exact ⟨hab, (List.append_nil _).symm, fun _ => rfl⟩
  | cons b bs ih =>
    obtain ⟨hhead, htail⟩ := List.forall_mem_cons.mp hb
    have ⟨hc, hw⟩ := State.inv_body h
    rw [List.length_cons] at hroom
    have hfr := takeByte_fr_of_data hab hhead
    obtain ⟨hfst, hlen, -⟩ := Framer.collect_frame s.cfg s.fr b
    obtain ⟨hab', hbytes, hcmd⟩ := ih (takeByte_inv h b) (by rw [hfr, hfst, hab]) (by rwa [takeByte_cfg])
      (by rw [hfr, hlen, Framer.append_len hc, takeByte_cfg]; omega)
    rw [hfr, Framer.collect_bytes hc hw (by omega), List.append_assoc, List.singleton_append] at hbytes
    refine ⟨hab', hbytes, fun hn => ?_⟩
    have hkeep := Framer.collect_cmd_of_ne_none h hn b
    rw [hfr, hkeep] at hcmd
    exact hcmd hn

/-- A tag of three data bytes sets the command type to what it spells (42_framer.md R145, R146). -/
theorem takeBytes_tag_cmd {x y z : Byte} (h : s.inv) (hA : s.cfg.grammar = .A) (hab : s.fr.fst = .ab)
    (hnil : s.fr.bytes = []) (hb : ∀ b ∈ [x, y, z], byteClass s.cfg.grammar b = .data) :
    (takeBytes [x, y, z] s).fr.cmd = lookupCmd (x ++ y ++ z) := by
  obtain ⟨hc, -⟩ := State.inv_body h
  have h7 := seven_le_bodyMax hc hA
  have hlen : s.fr.bodyLen.toNat = 0 := Framer.bodyLen_of_bytes hnil
  have hxy : ∀ b ∈ [x, y], byteClass s.cfg.grammar b = .data := fun b h => hb b (List.mem_append_left [z] h)
  obtain ⟨hab', hbytes, -⟩ := takeBytes_of_data h hab hxy
    (by simp only [hlen, List.length_cons, List.length_nil]; omega)
  have ⟨hc, hw⟩ := State.inv_body (takeBytes_inv h [x, y])
  rw [hnil, List.nil_append] at hbytes
  rw [show [x, y, z] = [x, y] ++ [z] from rfl, takeBytes_append, takeBytes_singleton,
    takeByte_fr_of_data hab' (by rw [takeBytes_cfg]; exact hb z (by simp))]
  exact Framer.collect_cmd_of_third hc (by rw [takeBytes_cfg, hA]) hw hbytes z

/-! ### Closing a frame (42_framer.md R143, R147) -/

/-- An end marker closes an open frame exactly if the check holds. -/
theorem takeByte_end_fst (hA : s.cfg.grammar = .A) (hab : s.fr.fst = .ab) :
    (takeByte (endByte .A) s).fr.fst = .ad ↔ frameOK s.cfg s.fr = true := by
  have hend : byteClass s.cfg.grammar (endByte .A) = .endm := hA ▸ byteClass_of_end rfl
  unfold takeByte closeFrame
  rw [hab, hend]
  cases frameOK s.cfg s.fr <;> simp [Framer.cleared]

/-- A body with a command type has its mnemonic's three bytes, so the check compares the value's length (R147). -/
theorem frameOK_iff_of_cmd (h : s.inv) (hA : s.cfg.grammar = .A) (hn : s.fr.cmd ≠ .none) :
    frameOK s.cfg s.fr = true ↔ (s.fr.bodyLen.toNat : Int) = 3 + s.fr.cmd.width.toInt := by
  obtain ⟨-, -, -, -, hcmd, hwidth, -⟩ := h
  obtain ⟨-, h3⟩ := hcmd.mp hn
  rw [frameOK_iff_of_A hA, hwidth]
  omega

/-- A frame of a tag and a value, of data bytes, is accepted exactly if the tag's width is the value's length (R147). -/
theorem takeBytes_frame_fst {x y z : Byte} {ds : List Byte} (h : s.inv) (hA : s.cfg.grammar = .A)
    (hab : s.fr.fst = .ab) (hnil : s.fr.bytes = []) (ht : ∀ b ∈ [x, y, z], byteClass s.cfg.grammar b = .data)
    (hd : ∀ b ∈ ds, byteClass s.cfg.grammar b = .data) (hlen : ds.length ≤ 4) :
    (takeBytes ([x, y, z] ++ ds ++ [endByte .A]) s).fr.fst = .ad ↔
      (lookupCmd (x ++ y ++ z)).width.toInt = ds.length := by
  obtain ⟨hc, -⟩ := State.inv_body h
  have h7 := seven_le_bodyMax hc hA
  have h0 : s.fr.bodyLen.toNat = 0 := Framer.bodyLen_of_bytes hnil
  have htag := takeBytes_tag_cmd h hA hab hnil ht
  have hinv := takeBytes_inv h [x, y, z]
  obtain ⟨habt, hbt, -⟩ := takeBytes_of_data h hab ht (by simp only [h0, List.length_cons, List.length_nil]; omega)
  rw [hnil, List.nil_append] at hbt
  have h3 : (takeBytes [x, y, z] s).fr.bodyLen.toNat = 3 := Framer.bodyLen_of_bytes hbt
  obtain ⟨habd, hbd, hcmd⟩ := takeBytes_of_data hinv habt (by rwa [takeBytes_cfg])
    (by rw [h3, takeBytes_cfg]; omega)
  have hlend := Framer.bodyLen_of_bytes hbd
  rw [List.length_append, Framer.bytes_length, h3] at hlend
  specialize hcmd (htag ▸ lookupCmd_ne_none _)
  rw [htag] at hcmd
  rw [takeBytes_append, takeBytes_append, takeBytes_singleton,
    takeByte_end_fst (by rw [takeBytes_cfg, takeBytes_cfg, hA]) habd,
    frameOK_iff_of_cmd (takeBytes_inv hinv ds) (by rw [takeBytes_cfg, takeBytes_cfg, hA])
      (hcmd ▸ lookupCmd_ne_none _), hcmd, hlend]
  omega

/-! ### A marker inside the tag

What is left of the tag after its last marker is shorter than a mnemonic, and a digit ends no mnemonic. -/

/-- No frame is open, or one with at most `n` body bytes. -/
def State.bodyWithin (n : Nat) (s : State) : Prop := s.fr.fst = .ah ∨ s.fr.fst = .ab ∧ s.fr.bodyLen.toNat ≤ n

theorem State.bodyWithin.mono {m n : Nat} (h : s.bodyWithin m) (hmn : m ≤ n) : s.bodyWithin n :=
  h.imp_right fun ⟨hab, hlen⟩ => ⟨hab, hlen.trans hmn⟩

/-- Before the third body byte a marker leaves no body, and a data byte one more at most (42_framer.md R142 to R145). -/
theorem takeByte_bodyWithin {n : Nat} (h : s.inv) (hA : s.cfg.grammar = .A) (hs : s.bodyWithin n) (hn : n < 3) :
    (takeByte b s).bodyWithin 0 ∨ byteClass s.cfg.grammar b = .data ∧ (takeByte b s).bodyWithin (n + 1) := by
  rcases takeByte_cases b s with ⟨had, -⟩ | ⟨-, -, e⟩ | ⟨hah, -, e⟩ | ⟨-, -, e⟩ |
    ⟨hab, -, -, hgood, -⟩ | ⟨-, -, -, -, e⟩ | ⟨hab, hh, he, e⟩
  · rcases hs with hah | ⟨hab, -⟩
    · simp [had] at hah
    · simp [had] at hab
  · exact .inl (e ▸ .inr ⟨rfl, Nat.le_refl 0⟩)
  · exact .inl (e ▸ .inl hah)
  · exact .inl (e ▸ .inr ⟨rfl, Nat.le_refl 0⟩)
  · obtain ⟨h3, -⟩ := (frameOK_iff_of_A hA).mp hgood
    rcases hs with hah | ⟨-, hlen⟩
    · simp [hab] at hah
    · omega
  · exact .inl (e ▸ .inl rfl)
  · obtain ⟨hc, -⟩ := h
    obtain ⟨hfst, hlen, -⟩ := Framer.collect_frame s.cfg s.fr b
    refine .inr ⟨byteClass_of_ne hh he, e ▸ .inr ⟨hfst.trans hab, ?_⟩⟩
    show (s.fr.collect s.cfg b).bodyLen.toNat ≤ _
    rcases hs with hah | ⟨-, hn⟩
    · simp [hab] at hah
    · rw [hlen, Framer.append_len hc]
      omega

theorem takeBytes_bodyWithin {bs : List Byte} {n : Nat} (h : s.inv) (hA : s.cfg.grammar = .A) (hs : s.bodyWithin n)
    (hn : n + bs.length ≤ 3) : (takeBytes bs s).bodyWithin (n + bs.length) := by
  induction bs generalizing s n with
  | nil => exact hs
  | cons b bs ih =>
    rw [List.length_cons, Nat.add_comm bs.length, ← Nat.add_assoc] at hn ⊢
    have hb : (takeByte b s).bodyWithin (n + 1) := by
      rcases takeByte_bodyWithin (b := b) h hA hs (by omega) with h0 | ⟨-, h1⟩
      · exact h0.mono (Nat.zero_le _)
      · exact h1
    exact ih (takeByte_inv h b) (by rwa [takeByte_cfg]) hb hn

/-- A tag with a marker in it leaves at most two body bytes. -/
theorem takeBytes_marker_bodyWithin {bs : List Byte} {m : Byte} (h : s.inv) (hA : s.cfg.grammar = .A)
    (hs : s.bodyWithin 0) (hlen : bs.length ≤ 3) (hm : m ∈ bs) (hc : byteClass s.cfg.grammar m ≠ .data) :
    (takeBytes bs s).bodyWithin 2 := by
  obtain ⟨pre, post, rfl⟩ := List.append_of_mem hm
  rw [List.length_append, List.length_cons] at hlen
  have hpre := takeBytes_bodyWithin (bs := pre) h hA hs (by omega)
  have hinv := takeBytes_inv h pre
  have hA' : (takeBytes pre s).cfg.grammar = .A := by rw [takeBytes_cfg, hA]
  have h0 : (takeByte m (takeBytes pre s)).bodyWithin 0 :=
    (takeByte_bodyWithin hinv hA' hpre (by omega)).resolve_right fun ⟨hdata, _⟩ =>
      hc (by rw [← takeBytes_cfg pre, hdata])
  rw [takeBytes_append, takeBytes_cons]
  exact (takeBytes_bodyWithin (takeByte_inv hinv m) (by rw [takeByte_cfg, hA']) h0 (by omega)).mono (by omega)

/-- No frame is open, or one without a command type or with an undefined one (42_framer.md R154). -/
def State.noCommand (s : State) : Prop := s.fr.fst = .ah ∨ s.fr.fst = .ab ∧ (s.fr.cmd = .none ∨ s.fr.cmd = .undef)

/-- A body of at most two bytes has no command type (10_state.md R33). -/
theorem State.bodyWithin.noCommand (hs : s.bodyWithin 2) (h : s.inv) : s.noCommand := by
  obtain ⟨-, -, -, -, hcmd, -⟩ := h
  refine hs.imp_right fun ⟨hab, hlen⟩ => ⟨hab, .inl ?_⟩
  by_contra hn
  obtain ⟨-, h3⟩ := hcmd.mp hn
  omega

/-- A digit completes no mnemonic (30_encoding.md R87). -/
theorem takeByte_digit_noCommand (h : s.inv) (hA : s.cfg.grammar = .A) (hs : s.noCommand) (hd : isHexDigit b) :
    (takeByte b s).noCommand := by
  have hdata : byteClass s.cfg.grammar b = .data := hA ▸ byteClass_of_isHexDigit hd
  rcases hs with hah | ⟨hab, hcmd⟩
  · have hb : b ≠ headerByte s.cfg.grammar := fun hb => by simp [byteClass_eq_hdr_iff.mpr hb] at hdata
    exact takeByte_of_ah_of_ne hah hb ▸ .inl hah
  · have ⟨hc, hw⟩ := State.inv_body h
    obtain ⟨hfst, -, -⟩ := Framer.collect_frame s.cfg s.fr b
    have hfr := takeByte_fr_of_data hab hdata
    refine .inr ⟨by rw [hfr, hfst, hab], ?_⟩
    rw [hfr]
    by_cases h3 : s.cfg.grammar = .A ∧ (s.fr.append s.cfg b).bodyLen.toNat = 3
    case pos =>
      obtain ⟨-, h3⟩ := h3
      have h7 := seven_le_bodyMax hc hA
      rw [Framer.append_len hc] at h3
      obtain ⟨x, y, hxy⟩ := List.length_eq_two.mp (s.fr.bytes_length.trans (by omega : _ = 2))
      rw [Framer.collect_cmd_of_third hc hA hw hxy]
      exact .inr (lookupCmd_of_not_capital (b := b) (by simp) (not_isCapital_of_isHexDigit hd))
    case neg =>
      rw [Framer.collect_of_not_third h3]
      exact hcmd

theorem takeBytes_digits_noCommand {ds : List Byte} (h : s.inv) (hA : s.cfg.grammar = .A) (hs : s.noCommand)
    (hd : ∀ d ∈ ds, isHexDigit d) : (takeBytes ds s).noCommand := by
  induction ds generalizing s with
  | nil => exact hs
  | cons d ds ih =>
    obtain ⟨hhead, htail⟩ := List.forall_mem_cons.mp hd
    exact ih (takeByte_inv h d) (by rwa [takeByte_cfg]) (takeByte_digit_noCommand h hA hs hhead) htail

/-- Without a command type, or with the undefined one, the check fails (42_framer.md R147). -/
theorem takeByte_end_of_noCommand (h : s.inv) (hA : s.cfg.grammar = .A) (hs : s.noCommand) :
    (takeByte (endByte .A) s).fr.fst ≠ .ad := by
  rcases hs with hah | ⟨hab, hcmd⟩
  · rw [takeByte_of_ah_of_ne hah (by rw [hA]; decide), State.withResult_fr, hah]
    exact FState.noConfusion
  · rw [Ne, takeByte_end_fst hA hab]
    rcases hcmd with hnone | hundef
    · obtain ⟨-, -, -, -, hcmd, -⟩ := h
      intro hgood
      obtain ⟨h3, -⟩ := (frameOK_iff_of_A hA).mp hgood
      exact hcmd.mpr ⟨hA, h3⟩ hnone
    · rw [frameOK_of_undef h hundef]
      exact Bool.false_ne_true

/-! ### The round trip (R175) -/

/-- In an open frame with no body yet: a tag without markers is looked up and its width compared with the number of
digits; a tag with one is no mnemonic, and its frame comes to none. -/
theorem takeBytes_response_fst {x y z : Byte} {ds : List Byte} (h : s.inv) (hA : s.cfg.grammar = .A)
    (hab : s.fr.fst = .ab) (hnil : s.fr.bytes = []) (hd : ∀ d ∈ ds, isHexDigit d) (hlen : ds.length ≤ 4) :
    (takeBytes ([x, y, z] ++ ds ++ [endByte .A]) s).fr.fst = .ad ↔
      (lookupCmd (x ++ y ++ z)).width.toInt = ds.length := by
  by_cases ht : ∀ b ∈ [x, y, z], byteClass s.cfg.grammar b = .data
  case pos =>
    exact takeBytes_frame_fst h hA hab hnil ht (fun d hm => hA ▸ byteClass_of_isHexDigit (hd d hm)) hlen
  case neg =>
    push Not at ht
    obtain ⟨m, hm, hc⟩ := ht
    have h0 : s.fr.bodyLen.toNat = 0 := Framer.bodyLen_of_bytes hnil
    have hundef : lookupCmd (x ++ y ++ z) = .undef :=
      lookupCmd_of_not_capital hm fun hcap => hc (hA ▸ byteClass_of_marker_lt (by omega))
    have htag := takeBytes_inv h [x, y, z]
    have hA' : (takeBytes [x, y, z] s).cfg.grammar = .A := by rw [takeBytes_cfg, hA]
    have hshort := takeBytes_marker_bodyWithin (bs := [x, y, z]) h hA (.inr ⟨hab, h0.le⟩) (Nat.le_refl _) hm hc
    have hdigits := takeBytes_digits_noCommand htag hA' (hshort.noCommand htag) hd
    have hopen := takeByte_end_of_noCommand (takeBytes_inv htag ds) (by rw [takeBytes_cfg, hA']) hdigits
    rw [takeBytes_append, takeBytes_append, takeBytes_singleton, hundef]
    refine iff_of_false hopen fun hwidth => ?_
    have hneg : (Cmd.width .undef).toInt = -1 := by decide
    omega

/-- The header opens a frame with no body (42_framer.md R142). -/
theorem takeByte_header_fr (hA : s.cfg.grammar = .A) (hah : s.fr.fst = .ah) :
    (takeByte (headerByte .A) s).fr = s.fr.cleared .ab := by
  have hhdr : byteClass s.cfg.grammar (headerByte .A) = .hdr := hA ▸ byteClass_eq_hdr_iff.mpr rfl
  unfold takeByte
  rw [hah, hhdr]
  rfl

end

/-- Settles O59: the tag's width by the table of mnemonics is the width of the frame. -/
theorem responseFrameRoundTripsExactlyForItsMnemonics : Obligations.ResponseFrameRoundTripsExactlyForItsMnemonics := by
  intro s t0 t1 t2 v w bytes h hA hah hbytes
  rw [frameBytes] at hbytes
  split at hbytes
  case isFalse => cases hbytes
  case isTrue hw =>
    obtain rfl := Option.some.inj hbytes
    have hfr := takeByte_header_fr hA hah
    have hlen := hexDigits_length (v % (16 ^ w : Nat)).toNat w
    have hframe := takeBytes_response_fst (x := t0) (y := t1) (z := t2) (takeByte_inv h (headerByte .A))
      (by rw [takeByte_cfg, hA]) (by rw [hfr]; rfl) (by rw [hfr]; rfl)
      (fun d => isHexDigit_of_mem_hexDigits) (by rw [hlen]; omega)
    rw [hlen] at hframe
    exact hframe.trans (lookupCmd_width_eq_iff hw)

end Sys2Proof.Machine

/-! ## The control operations (44_control.md R190 to R194)

What `NOP`, `IE_WRITE`, `CLR_STATUS` and `RD_REG` answer when MAIN issues them, the numbers the registers read as
(10_state.md R36 to R44), and that no other operation touches the enables. -/

namespace Sys2Proof.Machine

/-! ### Words (30_encoding.md R81, R83) -/

/-- The word of an operation whose operand is the low bits of `D`: the operand is added to the row's base. -/
theorem opWord_operand {n : Nat} (hn : n ≤ 8) (op : BitVec 4) (v : BitVec n) :
    opWord op 0#4 (v.setWidth 8) = BitVec.ofNat 16 (op.toNat * 4096 + v.toNat) := by
  have hop := op.isLt
  have hv : v.toNat < 2 ^ 8 := v.isLt.trans_le (Nat.pow_le_pow_right (by decide) hn)
  apply BitVec.eq_of_toNat_eq
  rw [opWord_toNat, BitVec.toNat_setWidth, BitVec.toNat_ofNat, BitVec.toNat_ofNat]
  omega

/-- `IE_WRITE v` is the word `0x9000 | v` (R191). -/
theorem encode_ieWrite (v : BitVec 2) : encode (.ieWrite v) = .op (BitVec.ofNat 16 (0x9000 + v.toNat)) :=
  congrArg Encoding.op (opWord_operand (by decide) 0x9#4 v)

/-- `CLR_STATUS m` is the word `0xA000 | m` (R192). -/
theorem encode_clrStatus (m : BitVec 5) : encode (.clrStatus m) = .op (BitVec.ofNat 16 (0xA000 + m.toNat)) :=
  congrArg Encoding.op (opWord_operand (by decide) 0xA#4 m)

/-! ### What each operation answers MAIN -/

section

variable {s : State}

theorem exec_nop (ha : s.agent = .main) : exec .nop s = .next (s.withResult 0x00#8) := if_pos ha

theorem exec_ieWrite (ha : s.agent = .main) (v : BitVec 2) :
    exec (.ieWrite v) s = .next { s with rxie := v.getLsbD 0, txie := v.getLsbD 1, result := some 0x00#8 } := if_pos ha

theorem exec_clrStatus (ha : s.agent = .main) (m : BitVec 5) :
    exec (.clrStatus m) s = .next { s with status := statusClear s.status m, result := some 0x00#8 } := if_pos ha

/-- `RD_REG` of a register that has a value (R193). -/
theorem exec_rdReg (ha : s.agent = .main) {r : BitVec 4} {v : Byte} (hv : s.readReg r = some v) :
    exec (.rdReg r) s = .next (s.withResult v) := by
  show execRdReg r s = _
  rw [execRdReg, issuedBy_of_agent ha, hv]

end

/-- `STATUS & ~m` bit by bit (R192). -/
theorem statusClear_getLsbD (st m : BitVec 5) {i : Nat} (hi : i < 5) :
    (statusClear st m).getLsbD i = (st.getLsbD i && !m.getLsbD i) := by
  simp [statusClear, hi]

/-- The enables are the two low bits of `CTRL` (10_state.md R37), the operand that `CRIT_EXIT` writes back (R194). -/
theorem State.ctrlReg_enables (s : State) :
    (s.ctrlReg.extractLsb' 0 2).getLsbD 0 = s.rxie ∧ (s.ctrlReg.extractLsb' 0 2).getLsbD 1 = s.txie := by
  unfold State.ctrlReg
  cases s.rxie <;> cases s.txie <;> cases s.txAct <;> decide

/-- Settles O20. -/
theorem nopLeavesStateUnchanged : Obligations.NopLeavesStateUnchanged := by
  refine ⟨decodeOp_of_encode rfl, fun s => ?_⟩
  rw [exec_main_or_refused rfl exec_nop, ite_not]
  rfl

/-- Settles O21. -/
theorem ieWriteSetsBothEnables : Obligations.IeWriteSetsBothEnables :=
  fun v => ⟨decodeOp_of_encode (encode_ieWrite v), fun _ ha => exec_ieWrite ha v⟩

/-- Settles O22: the new STATUS is `statusClear`. -/
theorem clrStatusClearsTheSelectedBits : Obligations.ClrStatusClearsTheSelectedBits :=
  fun m => ⟨decodeOp_of_encode (encode_clrStatus m), fun s =>
    ⟨fun ha => ⟨statusClear s.status m, fun _ hi => statusClear_getLsbD s.status m hi, exec_clrStatus ha m⟩,
      fun ha => exec_of_agent_ne ha⟩⟩

/-- Settles O25: the byte read is `CTRL`, and the two bits `CRIT_EXIT` writes back are its enables. -/
theorem criticalSectionRestoresTheEnables : Obligations.CriticalSectionRestoresTheEnables := by
  intro s t v ha hread hv
  obtain rfl : s.withResult s.ctrlReg = t := Host.Outcome.next.inj ((exec_rdReg ha rfl).symm.trans hread)
  obtain rfl : s.ctrlReg = v := Option.some.inj hv
  refine ⟨rfl, fun u hu => exec_ieWrite hu 0#2, _, rfl, fun u hu => ?_⟩
  obtain ⟨hrx, htx⟩ := s.ctrlReg_enables
  rw [exec_ieWrite hu, hrx, htx]

/-! ### The registers as numbers (10_state.md R36 to R44) -/

theorem State.statusReg_toNat (s : State) : s.statusReg.toNat = s.status.toNat := by
  have := s.status.isLt
  rw [State.statusReg, BitVec.toNat_setWidth]
  omega

theorem State.ctrlReg_cast (s : State) :
    (s.ctrlReg.toNat : Int) = s.rxie.toNat + 2 * s.txie.toNat + 4 * s.txAct.toNat := by
  unfold State.ctrlReg
  cases s.rxie <;> cases s.txie <;> cases s.txAct <;> rfl

/-- The register of the two `FULL` flags (R43). -/
theorem fullFlags_cast (rx tx : Bool) : ((bitAt 0 rx ||| bitAt 1 tx).toNat : Int) = rx.toNat + 2 * tx.toNat := by
  cases rx <;> cases tx <;> rfl

/-- `Count` by the rule's formula, over the integers (R24). -/
theorem Ring.count_cast {n : Nat} {q : Ring} (h : q.ok n) :
    (q.count n : Int) = if q.full then (n : Int) else ((q.wr : Int) - q.rd) % n := by
  obtain ⟨-, hrd, -⟩ := h
  unfold Ring.count
  split
  · rfl
  · have hshift : ((q.wr + (n - q.rd) : Nat) : Int) = (q.wr - q.rd) + n := by omega
    rw [Int.natCast_mod, hshift, Int.add_emod_right]

/-- In a build that 00_scope.md R7 allows, a number up to `N` is read whole as a byte. -/
theorem byte_cast {c : Config} (hc : c.wf) {k : Nat} (hk : k ≤ c.n) : ((BitVec.ofNat 8 k).toNat : Int) = k := by
  obtain ⟨-, hn, -⟩ := hc
  rw [BitVec.toNat_ofNat]
  omega

/-- Settles O23, register by register: an index is below `N` and an occupancy at most `N`, so each is read whole. -/
theorem rdRegReadsEachLogicalRegister : Obligations.RdRegReadsEachLogicalRegister := by
  intro s r ha ⟨hc, hrx, htx, _⟩ hr
  have ⟨hrxwr, hrxrd, _⟩ := hrx
  have ⟨htxwr, htxrd, _⟩ := htx
  have hlt : r.toNat < 15 := by
    have hne : r.toNat ≠ 15 := fun h => hr (BitVec.eq_of_toNat_eq h)
    omega
  refine Exists.imp (fun v hv => And.imp_left (exec_rdReg ha) hv) ?_
  unfold State.readReg
  generalize r.toNat = k at hlt ⊢
  match k, hlt with
  | 0, _ => exact ⟨_, rfl, congrArg _ s.statusReg_toNat⟩
  | 1, _ => exact ⟨_, rfl, s.ctrlReg_cast⟩
  | 2, _ => exact ⟨_, rfl, by cases s.fr.fst <;> rfl⟩
  | 3, _ => exact ⟨_, rfl, rfl⟩
  | 4, _ => exact ⟨_, rfl, by cases s.fr.cmd <;> rfl⟩
  | 5, _ => exact ⟨_, rfl, rfl⟩
  | 6, _ => exact ⟨_, rfl, (byte_cast hc (Ring.count_le hrx)).trans (Ring.count_cast hrx)⟩
  | 7, _ => exact ⟨_, rfl, (byte_cast hc (Ring.count_le htx)).trans (Ring.count_cast htx)⟩
  | 8, _ => exact ⟨_, rfl, byte_cast hc hrxwr.le⟩
  | 9, _ => exact ⟨_, rfl, byte_cast hc hrxrd.le⟩
  | 10, _ => exact ⟨_, rfl, byte_cast hc htxwr.le⟩
  | 11, _ => exact ⟨_, rfl, byte_cast hc htxrd.le⟩
  | 12, _ => exact ⟨_, rfl, fullFlags_cast s.rx.full s.tx.full⟩
  | 13, _ => exact ⟨_, rfl, by cases s.cfg.grammar <;> rfl⟩
  | 14, _ => exact ⟨_, rfl, byte_cast hc le_rfl⟩

/-! ### What moves the enables (R191) -/

theorem pushRing_enables {q : RingSel} {b : Byte} {s t : State} (h : pushRing q b s = .next t) :
    t.rxie = s.rxie ∧ t.txie = s.txie := by
  obtain ⟨r, ⟨-, rfl⟩ | ⟨-, lost, rfl⟩⟩ := pushRing_next h <;> simp

theorem popRing_enables {q : RingSel} {s : State} {p : Byte × State} (h : popRing q s = .next p) :
    p.2.rxie = s.rxie ∧ p.2.txie = s.txie := by
  rcases popRing_next h with ⟨-, rfl⟩ | ⟨-, rfl⟩ <;> simp

/-- The framer's arms keep `CTRL`, and so its bits. -/
theorem takeByte_enables (b : Byte) (s : State) : (takeByte b s).rxie = s.rxie ∧ (takeByte b s).txie = s.txie := by
  obtain ⟨-, -, -, -, -, -, hctrl, -⟩ := takeByte_frame b s
  obtain ⟨hrx, htx⟩ := (takeByte b s).ctrlReg_enables
  rw [← hrx, ← htx, hctrl]
  exact s.ctrlReg_enables

/-- Every operation but `IE_WRITE` keeps the enables. -/
theorem Effect.enables {i : Instr} {s t : State} (h : Effect s i t) (hi : ∀ v, i ≠ .ieWrite v) :
    t.rxie = s.rxie ∧ t.txie = s.txie := by
  cases h with
  | ieWrite v => exact absurd rfl (hi v)
  | pushRx hp | pushTx hp =>
    have ht := pushRing_enables hp
    exact ht
  | popRx hp | popTx hp => exact popRing_enables hp
  | emptyRx | emptyTx =>
    obtain ⟨k, v, e⟩ := emptyQuery_eq _ s
    rw [e]
    exact ⟨rfl, rfl⟩
  | frStepTake | marker => exact takeByte_enables _ _
  | mnemonic =>
    obtain ⟨f, e⟩ := recognise_eq _ _ s
    rw [e]
    exact ⟨rfl, rfl⟩
  | nop | frStepHeld | frStepNone | frAck | frAckNone | frBody | txReadyIdle | txReadySend | pumpBusy | pumpNone
  | pumpSend | clrStatus | rdReg | rdRegReserved => exact ⟨rfl, rfl⟩

/-- A word that changes an enable is MAIN's `IE_WRITE`. -/
theorem issueWord_enables_ne {w : OpWord} {s t : State} (h : issueWord w s = .next t)
    (hne : ¬(t.rxie = s.rxie ∧ t.txie = s.txie)) : s.agent = .main ∧ ∃ v, decodeOp w = .ok (.ieWrite v) := by
  rcases issueWord_next h with ⟨-, -, rfl⟩ | ⟨i, hd, he⟩
  · exact absurd ⟨rfl, rfl⟩ hne
  · rcases exec_next he with ⟨-, rfl⟩ | ⟨ha, he⟩
    · exact absurd ⟨rfl, rfl⟩ hne
    · by_cases hi : ∃ v, i = .ieWrite v
      · obtain ⟨v, rfl⟩ := hi
        exact ⟨ha, v, hd⟩
      · exact absurd (he.enables (not_exists.mp hi)) hne

/-- Settles O56: by the step inversion `step_next`; only an issued word can change an enable outside a reset. -/
theorem enablesChangeOnlyByIeWrite : Obligations.EnablesChangeOnlyByIeWrite := by
  intro s t h hne
  rcases step_next h with ⟨-, rfl⟩ | ⟨rest, ht, -⟩ | ⟨tn, rest, a, w, ht, hi, -, h3⟩
  · exact absurd ⟨rfl, rfl⟩ hne
  · exact ⟨rest, .inl ht⟩
  · rcases h3 with ⟨-, rfl⟩ | ⟨-, -, rfl⟩ | ⟨-, line, -, hw⟩
    · exact absurd ⟨rfl, rfl⟩ hne
    · exact absurd ⟨rfl, rfl⟩ hne
    · obtain ⟨ha, v, hd⟩ := issueWord_enables_ne hw hne
      obtain rfl : a = .main := ha
      obtain rfl : tn = .issue .main w := asIssue_main hi
      exact ⟨rest, .inr ⟨w, v, ht, hd⟩⟩

end Sys2Proof.Machine

/-! ## Events, STATUS and refusals (60_exceptions.md R211 to R219)

What an operation does to `EVH` and STATUS, said once as `EventMove`; every other operation keeps both
(`Effect.events`). -/

namespace Sys2Proof.Machine

/-! ### What a step does to the events -/

/-- From `s` to `t` no event is raised and no STATUS bit is cleared. -/
def State.keepsEvents (s t : State) : Prop := t.evh = s.evh ∧ t.status = s.status

/-- From `s` to `t` one event is raised, by the only agent whose step raises it (60_exceptions.md R211, R213). -/
def State.raises (s t : State) (e : Event) : Prop :=
  t.agent = e.raiser ∧ t.evh = s.evh ++ [⟨e, t.agent⟩] ∧ t.status = statusSet s.status e

/-- From `s` to `t` at most one event is raised, and no STATUS bit is cleared. -/
def State.raisesAtMostOne (s t : State) : Prop := s.keepsEvents t ∨ ∃ e, s.raises t e

/-- What an operation that touches `EVH` or STATUS does to them (60_exceptions.md R211, 44_control.md R192). -/
inductive EventMove (s t : State) : Instr → Prop
  | raised {i : Instr} (e : Event) : s.raises t e → EventMove s t i
  | cleared (m : BitVec 5) : t.evh = s.evh → t.status = statusClear s.status m → EventMove s t (.clrStatus m)

/-- The turn, and the agent and line input of the issue, are no part of what an `EventMove` speaks of. -/
theorem EventMove.of_issuing {i : Instr} {s t : State} {rest : List Turn} {a : Agent} {line : List Byte}
    (h : EventMove ((s.withTurns rest).issuing a line) t i) : EventMove s t i := by
  cases h with
  | raised e he => exact .raised e he
  | cleared m hevh hst => exact .cleared m hevh hst

/-- A push raises at most an overflow, for the agent that pushes that ring (40_ring_buffer.md R101). -/
theorem pushRing_events {q : RingSel} {b : Byte} {s t : State} (h : pushRing q b s = .next t)
    (ha : ∀ lost, s.agent = (Event.overflow q lost b).raiser) :
    s.raisesAtMostOne t := by
  obtain ⟨r, ⟨-, rfl⟩ | ⟨-, lost, rfl⟩⟩ := pushRing_next h
  · exact .inl ⟨State.setRing_evh s q r, State.setRing_status s q r⟩
  · exact .inr ⟨.overflow q lost b, by simp [State.raises, ha lost]⟩

/-- MAIN's pop raises at most an underflow (40_ring_buffer.md R104). -/
theorem popRing_events {q : RingSel} {s : State} {p : Byte × State} (h : popRing q s = .next p)
    (ha : s.agent = .main) : s.raisesAtMostOne p.2 := by
  rcases popRing_next h with ⟨-, rfl⟩ | ⟨-, rfl⟩
  · exact .inr ⟨.underflow q, ha, rfl, rfl⟩
  · exact .inl ⟨State.setRing_evh s q _, State.setRing_status s q _⟩

/-- The framer's arms, in MAIN's step, raise at most a framing event (42_framer.md R143, R144). -/
theorem takeByte_events (b : Byte) {s : State} (ha : s.agent = .main) : s.raisesAtMostOne (takeByte b s) := by
  rcases takeByte_cases b s with ⟨-, h⟩ | ⟨-, -, h⟩ | ⟨-, -, h⟩ | ⟨-, -, h⟩ | ⟨-, -, -, -, h⟩ | ⟨-, -, -, -, h⟩ |
    ⟨-, -, -, h⟩ <;> rw [h]
  case inr.inr.inr.inl => exact .inr ⟨.framingRestart s.fr.bodyLen, ha, rfl, rfl⟩
  case inr.inr.inr.inr.inr.inl => exact .inr ⟨.framingLength s.fr.bodyLen s.fr.cmd, ha, rfl, rfl⟩
  all_goals exact .inl ⟨rfl, rfl⟩

/-- The marker bytes are met inside MAIN's `FR_STEP` (10_state.md R34, 30_encoding.md R86). -/
theorem agent_of_encode_wire {i : Instr} {b : Byte} (h : encode i = .wire b) : Instr.agent i = .main := by
  cases i with
  | pushRx | txReady => cases h
  | _ => rfl

theorem State.raisesAtMostOne.move {s t : State} (h : s.raisesAtMostOne t) (i : Instr) :
    s.keepsEvents t ∨ EventMove s t i :=
  h.imp_right fun ⟨e, he⟩ => .raised e he

/-- The returned byte is no part of the events. -/
theorem State.raisesAtMostOne.withResult {s t : State} (h : s.raisesAtMostOne t) (v : Byte) :
    s.raisesAtMostOne (t.withResult v) := h

/-- An operation of its permitted agent keeps `EVH` and STATUS, or is one of the moves. -/
theorem Effect.events {i : Instr} {s t : State} (h : Effect s i t) (ha : s.agent = Instr.agent i) :
    s.keepsEvents t ∨ EventMove s t i := by
  cases h with
  | pushRx hp | pushTx hp => exact ((pushRing_events hp fun _ => ha).withResult _).move _
  | popRx hp | popTx hp => exact ((popRing_events hp ha).withResult _).move _
  | frStepTake k =>
    refine State.raisesAtMostOne.move ?_ .frStep
    exact takeByte_events _ (s := State.setRing { s with draws := k } .rx (s.rx.popped s.cfg.n)) ha
  | marker hi => exact (takeByte_events _ (ha.trans (agent_of_encode_wire hi))).move i
  | clrStatus m => exact .inr (.cleared m rfl rfl)
  | emptyRx | emptyTx =>
    obtain ⟨k, v, e⟩ := emptyQuery_eq _ s
    rw [e]
    exact .inl ⟨rfl, rfl⟩
  | mnemonic =>
    obtain ⟨f, e⟩ := recognise_eq _ _ s
    rw [e]
    exact .inl ⟨rfl, rfl⟩
  | nop | frStepHeld | frStepNone | frAck | frAckNone | frBody | txReadyIdle | txReadySend | pumpBusy | pumpNone
  | pumpSend | ieWrite | rdReg | rdRegReserved => exact .inl ⟨rfl, rfl⟩

/-- A word that moves the events or STATUS decodes to an operation that does, issued by its permitted agent. -/
theorem issueWord_events {w : OpWord} {s t : State} (h : issueWord w s = .next t) :
    s.keepsEvents t ∨ ∃ i, decodeOp w = .ok i ∧ s.agent = Instr.agent i ∧ EventMove s t i := by
  rcases issueWord_next h with ⟨-, -, rfl⟩ | ⟨i, hd, he⟩
  · exact .inl ⟨rfl, rfl⟩
  · rcases exec_next he with ⟨-, rfl⟩ | ⟨ha, he⟩
    · exact .inl ⟨rfl, rfl⟩
    · exact (he.events ha).imp_right fun hm => ⟨i, hd, ha, hm⟩

/-- A step resets the block, keeps `EVH` and STATUS, or is the turn of an agent issuing an operation that moves them. -/
theorem step_events {s t : State} (h : step s = .next t) :
    (∃ rest, s.turns = .reset :: rest ∧ t = (s.withTurns rest).blockReset) ∨ s.keepsEvents t ∨
    ∃ tn rest w i, s.turns = tn :: rest ∧ tn.asIssue s = some (Instr.agent i, w) ∧ decodeOp w = .ok i ∧
      EventMove s t i := by
  rcases step_next h with ⟨-, rfl⟩ | hreset | ⟨tn, rest, a, w, ht, hi, -, h3⟩
  · exact .inr (.inl ⟨rfl, rfl⟩)
  · exact .inl hreset
  · rcases h3 with ⟨-, rfl⟩ | ⟨-, -, rfl⟩ | ⟨-, line, -, hw⟩
    · exact .inr (.inl ⟨rfl, rfl⟩)
    · exact .inr (.inl ⟨rfl, rfl⟩)
    · refine .inr ((issueWord_events hw).imp_right fun ⟨i, hd, ha, hm⟩ => ?_)
      obtain rfl : a = Instr.agent i := ha
      exact ⟨tn, rest, w, i, ht, hi, hd, hm.of_issuing⟩

/-! ### Attribution and record (R211, R213, R217) -/

/-- `STATUS` bit by bit after an event (R211). -/
theorem statusSet_getLsbD (st : BitVec 5) (e : Event) (i : Nat) :
    (statusSet st e).getLsbD i = (st.getLsbD i || e.bit.getLsbD i) := BitVec.getLsbD_or

/-- The record of the new event is attributed to its raiser and accounts for the bit it sets. -/
theorem State.raises.eventsOk {s t : State} {e : Event} (h : s.raises t e) (hs : s.eventsOk) : t.eventsOk := by
  obtain ⟨hagent, hevh, hst⟩ := h
  obtain ⟨hattr, hrec⟩ := hs
  rw [State.eventsOk, hevh, hst]
  refine ⟨fun r hr => ?_, fun i hi => ?_⟩
  · rcases List.mem_append.mp hr with hr | hr
    · exact hattr r hr
    · obtain rfl := List.mem_singleton.mp hr
      exact hagent
  · rw [statusSet_getLsbD, Bool.or_eq_true] at hi
    rcases hi with hi | hi
    · obtain ⟨r, hr, hbit⟩ := hrec i hi
      exact ⟨r, List.mem_append_left _ hr, hbit⟩
    · exact ⟨_, List.mem_append_right _ (List.mem_singleton_self _), hi⟩

/-- With the records kept, a STATUS with no new bit set stays accounted for. -/
theorem State.eventsOk_of_evh_eq {s t : State} (hs : s.eventsOk) (hevh : t.evh = s.evh)
    (hst : ∀ i : Fin 5, t.status.getLsbD i = true → s.status.getLsbD i = true) : t.eventsOk := by
  obtain ⟨hattr, hrec⟩ := hs
  rw [State.eventsOk, hevh]
  exact ⟨hattr, fun i hi => hrec i (hst i hi)⟩

theorem EventMove.eventsOk {i : Instr} {s t : State} (h : EventMove s t i) (hs : s.eventsOk) : t.eventsOk := by
  cases h with
  | raised e he => exact he.eventsOk hs
  | cleared m hevh hst =>
    refine State.eventsOk_of_evh_eq hs hevh fun j hj => ?_
    rw [hst, statusClear_getLsbD s.status m j.isLt, Bool.and_eq_true] at hj
    obtain ⟨hset, -⟩ := hj
    exact hset

/-- A reset leaves no record and no bit set (10_state.md R53). -/
theorem State.blockReset_eventsOk (s : State) : s.blockReset.eventsOk := State.resetFor_eventsOk s.cfg s.rxline

/-- Settles O19: the step inversion `step_events`, with one lemma for each way a step can touch `EVH` and STATUS. -/
theorem stepKeepsEventsAttributedAndRecorded : Obligations.StepKeepsEventsAttributedAndRecorded := by
  intro s t hs h
  rcases step_events h with ⟨rest, -, rfl⟩ | ⟨hevh, hst⟩ | ⟨-, -, -, i, -, -, -, hm⟩
  · exact State.blockReset_eventsOk _
  · exact State.eventsOk_of_evh_eq hs hevh fun j hj => hst ▸ hj
  · exact hm.eventsOk hs

/-- Settles O54: of the moves only a raised event lengthens `EVH`. -/
theorem stepRaisesAtMostOneEvent : Obligations.StepRaisesAtMostOneEvent := by
  intro s t h hr
  rcases step_events h with ⟨rest, ht, -⟩ | ⟨hevh, -⟩ | ⟨-, -, -, i, -, -, -, hm⟩
  · exact absurd ht (hr rest)
  · exact .inl hevh
  · cases hm with
    | raised e he =>
      obtain ⟨-, hevh, hst⟩ := he
      exact .inr ⟨e, hevh, hst⟩
    | cleared m hevh => exact .inl hevh

/-- Settles O55: of the moves only `CLR_STATUS` clears a bit, and only one its mask selects. -/
theorem statusBitsAreSticky : Obligations.StatusBitsAreSticky := by
  intro s t i h hset hclear
  rcases step_events h with ⟨rest, ht, -⟩ | ⟨-, hst⟩ | ⟨tn, rest, w, j, ht, ha, hd, hm⟩
  · exact ⟨rest, .inl ht⟩
  · rw [hst, hset] at hclear
    cases hclear
  · cases hm with
    | raised e he =>
      obtain ⟨-, -, hst⟩ := he
      simp [hst, statusSet_getLsbD, hset] at hclear
    | cleared m hevh hst =>
      obtain rfl : tn = .issue .main w := asIssue_main ha
      rw [hst, statusClear_getLsbD s.status m (BitVec.lt_of_getLsbD hset), hset] at hclear
      exact ⟨rest, .inr ⟨w, m, ht, hd, by simpa using hclear⟩⟩

/-! ### Refusals (R219) -/

/-- A reserved word is not RXI's own, which always decodes (30_encoding.md R84). -/
theorem not_pushRx_fields_of_reserved {w : OpWord} (h : (decodeOp w).toOption = none) :
    ¬(fieldOp w = 0x1#4 ∧ fieldX w = 0#4) := by
  rintro ⟨hop, hx⟩
  rw [decodeOp_of_pushRx_fields hop hx] at h
  cases h

theorem issueWord_of_reserved {w : OpWord} (h : (decodeOp w).toOption = none) (s : State) :
    issueWord w s = .next (s.refuse .reservedEncoding) := by
  unfold issueWord
  split
  case h_1 i hi => rw [hi] at h; cases h
  case h_2 => rfl

/-- Settles O9: the agent has a step and the word is not RXI's own, so the word is issued and found reserved. -/
theorem reservedWordIsRefused : Obligations.ReservedWordIsRefused := by
  intro s a w rest ht he hd
  rw [step_agent_turn ht rfl,
    issueFor_of_enabled (s := s.withTurns rest) he fun _ => not_pushRx_fields_of_reserved hd]
  exact issueWord_of_reserved hd _

/-- Settles O10: the permission table of the statement is `Instr.agent`. -/
theorem wrongAgentIsRefused : Obligations.WrongAgentIsRefused :=
  fun i _ h => exec_of_agent_ne (i := i) h

end Sys2Proof.Machine

/-! ## Reset and hazards (70_reset_and_hazards.md R240 to R245)

Between two operations of MAIN only the interrupt agents step, and neither can take a byte out of `RX`: that `RX` is not
empty is kept by each of their turns, and so by any run of them. -/

namespace Sys2Proof.Machine

/-! ### Reset -/

/-- A ring with equal indices and `FULL` clear holds nothing, whatever its storage (10_state.md R24). -/
theorem Ring.count_of_emptied (n : Nat) (m : Memory) :
    Ring.count n { mem := m, wr := 0, rd := 0, full := false } = 0 := by
  simp [Ring.count]

/-- With both sources disabled and the transmitter idle `CTRL` reads 0 (10_state.md R37). -/
theorem State.ctrlReg_of_idle {s : State} (hrx : s.rxie = false) (htx : s.txie = false) (hact : s.txAct = false) :
    s.ctrlReg = 0x00#8 := by
  rw [State.ctrlReg, hrx, htx, hact]
  decide

/-- Settles O14: the rings are emptied and the transmitter is idle; the rest are the values of 10_state.md R53. -/
theorem resetLeavesEmptyIdleBlock : Obligations.ResetLeavesEmptyIdleBlock :=
  fun c _ => ⟨Ring.count_of_emptied c.n [], Ring.count_of_emptied c.n [], rfl, rfl, rfl, rfl, rfl,
    State.ctrlReg_of_idle rfl rfl rfl⟩

/-- Settles O15: a reset turn is used up and the block is reset (`step_of_reset`). -/
theorem resetTurnResetsTheBlock : Obligations.ResetTurnResetsTheBlock :=
  fun _ _ ht => step_of_reset ht

/-! ### The interrupt agents never empty `RX` (R245) -/

/-- A ring that was just pushed holds at least the new byte (40_ring_buffer.md R101). -/
theorem Ring.pushed_isEmpty {n : Nat} {q : Ring} (h : q.ok n) (b : Byte) : (q.pushed n b).isEmpty = false := by
  rw [← Bool.not_eq_true, ← Ring.unread_eq_nil_iff (Ring.pushed_ok h b), Ring.pushed_unread h]
  simp

/-- After a push the ring is not empty, and the turns to come are the same. -/
theorem pushRing_waiting {q : RingSel} {b : Byte} {s t : State} (hok : (s.ring q).ok s.cfg.n)
    (h : pushRing q b s = .next t) : (t.ring q).isEmpty = false ∧ t.turns = s.turns := by
  have hpush := Ring.pushed_isEmpty hok b
  rw [pushRing_eq hok] at h
  cases h
  split <;> exact ⟨by cases q <;> exact hpush, State.setRing_turns s q _⟩

/-- No operation of an interrupt agent empties `RX`: RXI's only adds to it, TXI's does not touch it (10_state.md R50). -/
theorem Effect.rx_waiting {i : Instr} {s t : State} (h : Effect s i t) (hi : Instr.agent i ≠ .main)
    (hok : s.rx.ok s.cfg.n) (he : s.rx.isEmpty = false) : t.rx.isEmpty = false ∧ t.turns = s.turns := by
  cases ha : Instr.agent i with
  | main => exact absurd ha hi
  | rxi =>
    obtain ⟨b, rfl⟩ := agent_eq_rxi ha
    cases h with
    | pushRx hp =>
      have hw := pushRing_waiting (q := .rx) hok hp
      exact hw
    | marker hm | mnemonic hm => cases hm
  | txi =>
    obtain rfl := agent_eq_txi ha
    cases h with
    | txReadyIdle | txReadySend => exact ⟨he, rfl⟩
    | marker hm | mnemonic hm => cases hm

/-- No word an interrupt agent issues empties `RX`: any other operation than its own is refused (60_exceptions.md
R219). -/
theorem issueWord_rx_waiting {w : OpWord} {s t : State} (h : issueWord w s = .next t) (ha : s.agent ≠ .main)
    (hok : s.rx.ok s.cfg.n) (he : s.rx.isEmpty = false) : t.rx.isEmpty = false ∧ t.turns = s.turns := by
  rcases issueWord_next h with ⟨-, -, rfl⟩ | ⟨i, -, hx⟩
  · exact ⟨he, rfl⟩
  · rcases exec_next hx with ⟨-, rfl⟩ | ⟨hi, hx⟩
    · exact ⟨he, rfl⟩
    · exact hx.rx_waiting (hi ▸ ha) hok he

/-- No turn of an interrupt agent empties `RX`, in whichever way the turn spells its event; the turn is used up. -/
theorem step_rx_waiting {s t : State} {tn : Turn} {rest : List Turn} {a : Agent} {w : OpWord}
    (ht : s.turns = tn :: rest) (hi : tn.asIssue s = some (a, w)) (ha : a ≠ .main) (hok : s.rx.ok s.cfg.n)
    (he : s.rx.isEmpty = false) (h : step s = .next t) : t.rx.isEmpty = false ∧ t.turns = rest := by
  rw [step_agent_turn ht hi] at h
  rcases issueFor_cases a w (s.withTurns rest) with ⟨_, -, e⟩ | ⟨-, -, e⟩ | ⟨-, -, rfl, _, line, -, -, e⟩ |
    ⟨-, -, -, e⟩ | ⟨-, -, -, e⟩ <;> rw [e] at h
  · cases h
  · cases h; exact ⟨he, rfl⟩
  · exact issueWord_rx_waiting (s := (s.withTurns rest).issuing .rxi line) h ha hok he
  · cases h; exact ⟨he, rfl⟩
  · exact issueWord_rx_waiting (s := (s.withTurns rest).issuing a s.rxline) h ha hok he

/-- A turn that is an interrupt event is a turn of an interrupt agent (10_state.md R52). -/
theorem asIssue_of_event {tn : Turn} (h : tn = .receive ∨ tn = .transmitReady) (s : State) :
    ∃ a w, tn.asIssue s = some (a, w) ∧ a ≠ .main := by
  rcases h with rfl | rfl
  · exact ⟨_, _, rfl, nofun⟩
  · exact ⟨_, _, rfl, nofun⟩

/-- A run that goes on did so in its first step, and from there. -/
theorem run_succ_next {M : Host.Core} {s u : M.State} {k : Nat} (h : M.run (k + 1) s = .next u) :
    ∃ t, M.step s = .next t ∧ M.run k t = .next u := by
  rw [Host.Core.run] at h
  split at h
  case h_1 t ht => exact ⟨t, ht, h⟩
  case h_2 | h_3 => cases h

/-- No run of interrupt events empties `RX`, and the invariants hold after it. -/
theorem run_rx_waiting {events : List Turn} (hev : ∀ e ∈ events, e = .receive ∨ e = .transmitReady) {s u : State}
    (ht : s.turns = events) (h : s.inv) (he : s.rx.isEmpty = false)
    (hrun : Sys2Proof.core.run events.length s = .next u) : u.inv ∧ u.rx.isEmpty = false := by
  induction events generalizing s with
  | nil => cases hrun; exact ⟨h, he⟩
  | cons e rest ih =>
    obtain ⟨t, hs, hrun⟩ := run_succ_next hrun
    obtain ⟨a, w, hi, ha⟩ := asIssue_of_event (hev e List.mem_cons_self) s
    obtain ⟨he, htn⟩ := step_rx_waiting ht hi ha (State.inv_ring h .rx) he hs
    exact ih (fun e' hm => hev e' (List.mem_cons_of_mem e hm)) htn (step_inv h hs) he hrun

/-- An `EMPTY_RX` that answers 0 tells that `RX` is not empty, stale tests or not (20_memory.md R66), and leaves it. -/
theorem rx_nonempty_of_emptyRx_zero {s t : State} (ha : s.agent = .main) (h : exec .emptyRx s = .next t)
    (h0 : t.result = some 0x00#8) : t.rx.isEmpty = false := by
  have hrx : t.rx = s.rx := by
    rcases exec_next h with ⟨-, rfl⟩ | ⟨-, hx⟩
    · rfl
    · exact hx.ring_eq (q := .rx) nofun
  rw [hrx, ← Bool.not_eq_true]
  intro he
  rw [exec_emptyRx_of_empty ha he] at h
  cases h
  cases h0

/-- Settles O34: the answer 0 tells that `RX` is not empty, the interrupt events keep it so (`run_rx_waiting`), and a pop
of a ring that is not empty raises no event. -/
theorem nonemptyAnswerProtectsThePop : Obligations.NonemptyAnswerProtectsThePop := by
  intro s t u events ha hinv hx h0 hev hrun
  have hwaiting : t.rx.isEmpty = false := rx_nonempty_of_emptyRx_zero ha hx h0
  have htinv : t.inv := exec_inv hinv hx
  obtain ⟨hu, he⟩ := run_rx_waiting (s := t.withTurns events) hev rfl htinv hwaiting hrun
  exact ⟨_, exec_popOp_of_nonempty (q := .rx) (s := { u with agent := .main }) rfl (State.inv_ring hu .rx) he, rfl, rfl⟩

end Sys2Proof.Machine
